-- ==== Sys2Proof/Word.lean ====
section
/-! DEFINITION. The words of the CORE: the 8-bit item and the 5-bit value (00_scope.md R8). -/

namespace Sys2Proof

/-- One 8-bit item of a port, one symbol, one table entry, one command word (R8, R59). -/
abbrev Byte := BitVec 8

/-- One 5-bit value, what one symbol stands for (R8, R75). -/
abbrev Val5 := BitVec 5

end Sys2Proof
end

