-- ==== Sys2Proof/Syntax.lean ====
section
/-! DEFINITION. The commands of the CORE (30_encoding.md R70, R71) as syntax: the fields of a command word and the ten commands. -/

namespace Sys2Proof

/-- The bit order of an alphabet (10_state.md R23): the state bit ORDER, the operand ORD and ORD_LATCH. -/
inductive BitOrder where
  /-- Most significant bit first, code 0. -/
  | normal
  /-- Least significant bit first, code 1. -/
  | inverted
  deriving DecidableEq, Repr

/-- The operand SEL of LOADB: one of the three built-in alphabets (R73). -/
inductive Builtin where
  | zbase32
  | rfc4648
  | bech32
  deriving DecidableEq, Repr

/-- The fields of a command word (R70): bits 7:6, 5:4, 3 and 2:0. -/
structure CmdFields where
  zero : BitVec 2
  sel  : BitVec 2
  ord  : BitVec 1
  op   : BitVec 3
  deriving DecidableEq, Repr

/-- The ten commands, one constructor per row of spec/opcode_table.json (R71). No row has an operand field:
SEL and ORD are fixed by the row, LEN and the items are taken from the state (R85). -/
inductive Instr where
  | clr
  | loadbZbase32
  | loadbRfc4648
  | loadbBech32
  | buildNormal
  | buildInverted
  | enclen
  | declen
  | encode
  | decode
  deriving DecidableEq, Repr

/-- The fields the table of R71 gives a command: OP, and SEL of LOADB or ORD of BUILD. -/
def Instr.fields : Instr → CmdFields
  | .clr           => { zero := 0, sel := 0, ord := 0, op := 0 }
  | .loadbZbase32  => { zero := 0, sel := 0, ord := 0, op := 1 }
  | .loadbRfc4648  => { zero := 0, sel := 1, ord := 0, op := 1 }
  | .loadbBech32   => { zero := 0, sel := 2, ord := 0, op := 1 }
  | .buildNormal   => { zero := 0, sel := 0, ord := 0, op := 2 }
  | .buildInverted => { zero := 0, sel := 0, ord := 1, op := 2 }
  | .enclen        => { zero := 0, sel := 0, ord := 0, op := 3 }
  | .declen        => { zero := 0, sel := 0, ord := 0, op := 4 }
  | .encode        => { zero := 0, sel := 0, ord := 0, op := 5 }
  | .decode        => { zero := 0, sel := 0, ord := 0, op := 6 }

end Sys2Proof
end

