-- ==== Sys2Proof/WellFormed.lean ====
section
/-! DEFINITION. When the fields of a command word are a command (30_encoding.md R70, R73, R74), one check for each way they can fail. -/

namespace Sys2Proof

/-- Bits 7:6 must be 0 (R70). -/
def CmdFields.zeroClear (f : CmdFields) : Bool := f.zero == 0

/-- OP = 7 is no operation (R74). -/
def CmdFields.opDefined (f : CmdFields) : Bool := f.op != 7

/-- SEL = 3 is reserved in LOADB (R73). -/
def CmdFields.selDefined (f : CmdFields) : Bool := f.op != 1 || f.sel != 3

/-- SEL is used by LOADB only and must be 0 elsewhere (R70). -/
def CmdFields.selUsed (f : CmdFields) : Bool := f.op == 1 || f.sel == 0

/-- ORD is used by BUILD only and must be 0 elsewhere (R70). -/
def CmdFields.ordUsed (f : CmdFields) : Bool := f.op == 2 || f.ord == 0

/-- All five checks: the fields are those of one of the ten commands. -/
def CmdFields.wellFormed (f : CmdFields) : Bool :=
  f.zeroClear && f.opDefined && f.selDefined && f.selUsed && f.ordUsed

/-- A command is well formed when its fields are. -/
def Instr.wellFormed (i : Instr) : Bool := i.fields.wellFormed

end Sys2Proof
end

