-- ==== Sys2Proof/Decode.lean ====
section
/-! DEFINITION. Decoding a command word (30_encoding.md R70, R71, R74), total on the 256 bytes and rejecting by name, and the encoder. -/

namespace Sys2Proof

/-- Why a word is no command (R74); every one of them ends as ILLEGAL_CMD. -/
inductive Reject where
  /-- Bit 7 or bit 6 is set. -/
  | zeroFieldSet
  /-- OP = 7. -/
  | reservedOp
  /-- SEL = 3 with OP = 1. -/
  | reservedSel
  /-- SEL is set in an operation other than LOADB. -/
  | selNotUsed
  /-- ORD is set in an operation other than BUILD. -/
  | ordNotUsed
  deriving DecidableEq, Repr

/-- What a command word is: a command, or no command and why. -/
inductive Decoded where
  | command (i : Instr)
  | illegal (why : Reject)
  deriving DecidableEq, Repr

/-- The fields of a word (R70). -/
def fieldsOf (w : Byte) : CmdFields :=
  { zero := w.extractLsb' 6 2, sel := w.extractLsb' 4 2, ord := w.extractLsb' 3 1, op := w.extractLsb' 0 3 }

/-- The table of R71: the ten legal words and their commands. -/
def commandTable : List (Byte × Instr) :=
  [ (0x00, .clr),
    (0x01, .loadbZbase32),
    (0x11, .loadbRfc4648),
    (0x21, .loadbBech32),
    (0x02, .buildNormal),
    (0x0A, .buildInverted),
    (0x03, .enclen),
    (0x04, .declen),
    (0x05, .encode),
    (0x06, .decode) ]

/-- The name of what is wrong with the fields of a word outside the table (R74). -/
def rejectReason (f : CmdFields) : Reject :=
  if !f.zeroClear then .zeroFieldSet
  else if !f.opDefined then .reservedOp
  else if !f.selDefined then .reservedSel
  else if !f.selUsed then .selNotUsed
  else .ordNotUsed

/-- "a decoder matches the whole byte" (R71). -/
def decode (w : Byte) : Decoded :=
  match commandTable.find? (fun row => row.1 == w) with
  | some row => .command row.2
  | none => .illegal (rejectReason (fieldsOf w))

/-- The word made of the fields of R70. -/
def packFields (f : CmdFields) : Byte := f.zero ++ f.sel ++ f.ord ++ f.op

/-- The command word of a command (R70, R71). -/
def encode (i : Instr) : Byte := packFields i.fields

/-- The instruction the decoder reads from a table word: one byte, bit 0 its least significant bit. -/
def decodeTableWord (nbits w : Nat) : Option Instr :=
  if w % 2 ^ nbits < 256 then
    match decode (BitVec.ofNat 8 (w % 2 ^ nbits)) with
    | .command i => some i
    | .illegal _ => none
  else none

end Sys2Proof
end

