-- ==== Sys2Proof/Config.lean ====
section
/-! DEFINITION. What an implementation fixes: LEN_W (00_scope.md R7) and the bus placement of the registers (20_memory.md R60). -/

namespace Sys2Proof

/-- LEN_W of the machine that `Machine.State.reset` is. R7 leaves LEN_W open (LEN_W >= 8); 16 is the width that
95_test_vectors.md section 3 runs its programs at. DESIGN CHOICE, log 1: the machine itself takes LEN_W from
`State.lenW`, and no statement rests on this number. -/
def Config.resetLenW : Nat := 16

/-- REG_BASE, the bus address of register 0: open (10_state.md section 6, R60). No value is given: log 6. -/
opaque Config.regBase : Nat

/-- REG_STRIDE, the distance of two registers on the bus: open (10_state.md section 6, R60). No value is given: log 6. -/
opaque Config.regStride : Nat

end Sys2Proof
end

