-- ==== Sys2Proof/Machine/Tables.lean ====
section
/-! DEFINITION. The tables of the CORE as data (20_memory.md R50): a table of n bytes, an alphabet (ENC_LUT, DEC_LUT, ORDER), the decode table of 32 symbols, and ROM. -/

namespace Sys2Proof.Machine

/-- A table of n entries of 8 bits, indexed 0 to n-1 (R21, R22, R30). The entries are a list of that length. -/
structure Table (n : Nat) where
  entries : List Byte
  size_eq : entries.length = n
  deriving DecidableEq, Repr

/-- Read of entry i: always in range, no side effect (R51, R52). -/
def Table.get {n : Nat} (t : Table n) (i : Fin n) : Byte :=
  t.entries[i.val]'(by rw [t.size_eq]; exact i.isLt)

/-- The table with entry i replaced. -/
def Table.set {n : Nat} (t : Table n) (i : Nat) (b : Byte) : Table n :=
  { entries := t.entries.set i b, size_eq := by rw [List.length_set]; exact t.size_eq }

/-- The table with the same byte in every entry. -/
def Table.const (n : Nat) (b : Byte) : Table n :=
  { entries := List.replicate n b, size_eq := List.length_replicate }

/-- The table whose entry i is f i. -/
def Table.tabulate (n : Nat) (f : Nat → Byte) : Table n :=
  { entries := (List.range n).map f, size_eq := by rw [List.length_map, List.length_range] }

/-- An alphabet: what the CORE holds as the active one, and what a validated construction yields. -/
structure Alphabet where
  /-- ENC_LUT (R21): 32 symbols, the index is the 5-bit value. -/
  enc : Table 32
  /-- DEC_LUT (R22): indexed by a byte, the 5-bit value or 0xFF. -/
  dec : Table 256
  /-- ORDER (R23). -/
  order : BitOrder
  deriving DecidableEq, Repr

/-- The sentinel "not a symbol of this alphabet" (R76). -/
def sentinel : Byte := 0xFF#8

/-- The decode entry of byte b under the symbols sym: the position of b, or the sentinel (R108). -/
def inverseEntry (sym : Table 32) (b : Byte) : Byte :=
  if sym.entries.idxOf b < 32 then BitVec.ofNat 8 (sym.entries.idxOf b) else sentinel

/-- inverse(sym), the decode table of 32 distinct symbols (R108). -/
def inverse (sym : Table 32) : Table 256 :=
  Table.tabulate 256 (fun b => inverseEntry sym (BitVec.ofNat 8 b))

/-- The alphabet with the symbols sym and the order given (R100, R109). -/
def alphabetOf (sym : Table 32) (order : BitOrder) : Alphabet :=
  { enc := sym, dec := inverse sym, order := order }

/-- ROM[k].sym (R110), as ASCII codes, eight to a line. -/
def romSym : Builtin → Table 32
  | .zbase32 =>
    { entries :=
        [0x79, 0x62, 0x6E, 0x64, 0x72, 0x66, 0x67, 0x38] ++
        [0x65, 0x6A, 0x6B, 0x6D, 0x63, 0x70, 0x71, 0x78] ++
        [0x6F, 0x74, 0x31, 0x75, 0x77, 0x69, 0x73, 0x7A] ++
        [0x61, 0x33, 0x34, 0x35, 0x68, 0x37, 0x36, 0x39]
      size_eq := rfl }
  | .rfc4648 =>
    { entries :=
        [0x41, 0x42, 0x43, 0x44, 0x45, 0x46, 0x47, 0x48] ++
        [0x49, 0x4A, 0x4B, 0x4C, 0x4D, 0x4E, 0x4F, 0x50] ++
        [0x51, 0x52, 0x53, 0x54, 0x55, 0x56, 0x57, 0x58] ++
        [0x59, 0x5A, 0x32, 0x33, 0x34, 0x35, 0x36, 0x37]
      size_eq := rfl }
  | .bech32 =>
    { entries :=
        [0x71, 0x70, 0x7A, 0x72, 0x79, 0x39, 0x78, 0x38] ++
        [0x67, 0x66, 0x32, 0x74, 0x76, 0x64, 0x77, 0x30] ++
        [0x73, 0x33, 0x6A, 0x6E, 0x35, 0x34, 0x6B, 0x68] ++
        [0x63, 0x65, 0x36, 0x6D, 0x75, 0x61, 0x37, 0x6C]
      size_eq := rfl }

/-- ROM[k].order (R25). -/
def romOrder : Builtin → BitOrder
  | .zbase32 => .inverted
  | .rfc4648 => .normal
  | .bech32 => .normal

/-- ROM[k] with its decode table: what the trusted path makes active (R109). -/
def rom (k : Builtin) : Alphabet := alphabetOf (romSym k) (romOrder k)

end Sys2Proof.Machine
end

