-- ==== Sys2Proof/Machine/State.lean ====
section
/-! DEFINITION. The state of the CORE (10_state.md R20) with the environment a step depends on, the reasons a step can stop, and the state after reset (R42). -/

namespace Sys2Proof.Machine

/-- PH, the phase of the sequencer (10_state.md R31). -/
inductive Phase where
  | idle
  | build
  | enc
  | dec
  deriving DecidableEq, Repr

/-- The contents of STATUS.ERR_KIND (60_exceptions.md R181). Codes 8 to 15 are reserved and never read. -/
inductive ErrKind where
  | none
  | valInvalidLength
  | valUnprintableByte
  | valDuplicatedByte
  | decInvalidByte
  /-- Reserved: no step produces it (R186). -/
  | decInvalidLength
  | lenOverflow
  | illegalCmd
  deriving DecidableEq, Repr

/-- What the host can do (70_reset_and_hazards.md R220). Register reads are no steps (44_system.md R171) and no events. -/
inductive HostEvent where
  /-- Write data to register number reg. -/
  | write (reg data : Nat)
  /-- Offer one more item on IN, behind those already offered. -/
  | present (item : Byte)
  /-- Withdraw every item offered and not consumed (R217). -/
  | withdraw
  /-- Make the OUT sink ready, or not ready (44_system.md R177). -/
  | sink (ready : Bool)
  /-- Drive the rst pin (R210). -/
  | rst (level : Bool)
  /-- Nothing: the CORE takes its own step, if it has one. -/
  | tick
  deriving DecidableEq, Repr

/-- The whole state. Fields up to errByte are the components of R20; the rest is the model's own: the parameter
LEN_W, the two streams as lists, the pins the host drives and the host's events to come (log 1, log 2). -/
structure State where
  /-- ENC_LUT, DEC_LUT and ORDER: the active alphabet (R21, R22, R23). -/
  alpha : Alphabet
  /-- ACC (R26). -/
  acc : BitVec 12
  /-- PEND (R26). -/
  pend : BitVec 4
  /-- IDX (R28), a number below 2^lenW. -/
  idx : Nat
  /-- OUTCNT (R29), a number below 2^lenW. -/
  outcnt : Nat
  /-- STAGE (R30). -/
  stage : Table 32
  /-- ORD_LATCH (R30). -/
  ordLatch : BitOrder
  /-- PH (R31); STATUS.BUSY is computed from it (R33). -/
  ph : Phase
  /-- STATUS.DONE (R33). -/
  done : Bool
  /-- STATUS.ERR (R33). -/
  err : Bool
  /-- STATUS.ERR_KIND (R33). -/
  errKind : ErrKind
  /-- LEN (R34), a number below 2^lenW. -/
  len : Nat
  /-- RESULT (R35), a number below 2^lenW. -/
  result : Nat
  /-- ERR_OFFSET (R36), a number below 2^lenW. -/
  errOffset : Nat
  /-- ERR_BYTE (R37). -/
  errByte : Byte
  /-- LEN_W (00_scope.md R7): a parameter, written by no step. -/
  lenW : Nat
  /-- The items offered on IN and not consumed, oldest first. -/
  inp : List Byte
  /-- Every item put out on OUT so far, oldest first. -/
  out : List Byte
  /-- Whether the OUT sink takes items. -/
  outReady : Bool
  /-- The level of the rst pin. -/
  rst : Bool
  /-- The host's events still to happen, oldest first. -/
  host : List HostEvent
  deriving DecidableEq, Repr

/-- Why the machine can stop. No command and no fault of the CORE stops it: R193. -/
inductive Fault where
  /-- Raised by the DECODE symbol step when DEC_LUT holds 32 to 254 for the item: an active alphabet that breaks R24,
  of which "no rule of this spec covers that state" (70_reset_and_hazards.md R218, U12). Safe: unreachable from reset,
  and the machine stops where the spec says nothing. Log 5. -/
  | decEntryReserved
  deriving DecidableEq, Repr

/-- Why an instruction has no meaning. Every command has one, so nothing answers with it. -/
inductive Refusal where
  /-- An arm of exec whose meaning is not written yet; none is left. Safe. -/
  | notModelled (mnemonic : String)
  deriving DecidableEq, Repr

/-- The state after reset of the CORE whose LEN_W is lenW (R42), nothing offered on IN, nothing put out, the sink
ready, rst released and no host event to come. -/
def State.resetAt (lenW : Nat) : State :=
  { alpha := rom .zbase32
    acc := 0
    pend := 0
    idx := 0
    outcnt := 0
    stage := Table.const 32 0
    ordLatch := .normal
    ph := .idle
    done := false
    err := false
    errKind := .none
    len := 0
    result := 0
    errOffset := 0
    errByte := 0
    lenW := lenW
    inp := []
    out := []
    outReady := true
    rst := false
    host := [] }

/-- The machine right after reset, at the width `Config.resetLenW`. -/
def State.reset : State := State.resetAt Config.resetLenW

end Sys2Proof.Machine
end

