-- ==== Sys2Proof/Machine/Operands.lean ====
section
/-! DEFINITION. The operands of the operations (30_encoding.md R85) and the table reads (20_memory.md R51, R52). -/

namespace Sys2Proof.Machine

/-- MAXLEN = 2^LEN_W - 1 (00_scope.md R7). -/
def maxLen (lenW : Nat) : Nat := 2 ^ lenW - 1

/-- The low LEN_W bits of a number: what a register of LEN_W bits takes of it (10_state.md R34). Log 4. -/
def lenBits (lenW : Nat) (v : Nat) : Nat := v % 2 ^ lenW

/-- The code of a bit order in ORDER, ORD and ORD_LATCH (R23, R72). -/
def orderCode : BitOrder → BitVec 1
  | .normal => 0
  | .inverted => 1

/-- The code of a built-in alphabet in SEL (R73). -/
def selCode : Builtin → BitVec 2
  | .zbase32 => 0
  | .rfc4648 => 1
  | .bech32 => 2

/-- ENC_LUT[v] for a 5-bit value (R51). -/
def encRead (a : Alphabet) (v : Val5) : Byte := a.enc.get v.toFin

/-- DEC_LUT[b] for a byte (R52). -/
def decRead (a : Alphabet) (b : Byte) : Byte := a.dec.get b.toFin

/-- v & 31 of a natural number: the mask every 5-bit value comes from (41_length.md R126). -/
def mask5 (v : Nat) : Val5 := BitVec.ofNat 5 v

/-- v & 255 of a natural number. -/
def mask8 (v : Nat) : Byte := BitVec.ofNat 8 v

/-- v & ((1 << k) - 1): the low k bits of a natural number (R132, R153). -/
def lowBits (v k : Nat) : Nat := v &&& ((1 <<< k) - 1)

/-- ACC holds 12 bits (10_state.md R26). -/
def toAcc (v : Nat) : BitVec 12 := BitVec.ofNat 12 v

/-- PEND holds 4 bits (10_state.md R26). -/
def toPend (v : Nat) : BitVec 4 := BitVec.ofNat 4 v

end Sys2Proof.Machine
end

