-- ==== Sys2Proof/Machine/Flags.lean ====
section
/-! DEFINITION. STATUS (10_state.md R33) and what a fault reports (60_exceptions.md R180, R181): the only flags of the CORE (R38). -/

namespace Sys2Proof.Machine

/-- A fault with its payload, as the rules raise it (R182 to R188). -/
inductive FaultReport where
  | valInvalidLength
  | valUnprintableByte (byte : Byte)
  | valDuplicatedByte (byte : Byte)
  | decInvalidByte (offset : Nat) (byte : Byte)
  /-- Reserved: no rule raises it (R186). -/
  | decInvalidLength (len : Nat)
  | lenOverflow
  | illegalCmd
  deriving DecidableEq, Repr

/-- The kind of a fault. -/
def FaultReport.kind : FaultReport → ErrKind
  | .valInvalidLength => .valInvalidLength
  | .valUnprintableByte _ => .valUnprintableByte
  | .valDuplicatedByte _ => .valDuplicatedByte
  | .decInvalidByte _ _ => .decInvalidByte
  | .decInvalidLength _ => .decInvalidLength
  | .lenOverflow => .lenOverflow
  | .illegalCmd => .illegalCmd

/-- What the fault leaves in ERR_BYTE: its byte, 0 if it carries none (R37, R190). -/
def FaultReport.byte : FaultReport → Byte
  | .valInvalidLength => 0
  | .valUnprintableByte b => b
  | .valDuplicatedByte b => b
  | .decInvalidByte _ b => b
  | .decInvalidLength _ => 0
  | .lenOverflow => 0
  | .illegalCmd => 0

/-- What the fault leaves in ERR_OFFSET: its offset, 0 if it carries none (R36, R190); the len of the reserved kind
would go there (R186). -/
def FaultReport.offset : FaultReport → Nat
  | .valInvalidLength => 0
  | .valUnprintableByte _ => 0
  | .valDuplicatedByte _ => 0
  | .decInvalidByte o _ => o
  | .decInvalidLength n => n
  | .lenOverflow => 0
  | .illegalCmd => 0

/-- The code of a kind in STATUS bits 7:4 (R181). -/
def ErrKind.code : ErrKind → BitVec 4
  | .none => 0
  | .valInvalidLength => 1
  | .valUnprintableByte => 2
  | .valDuplicatedByte => 3
  | .decInvalidByte => 4
  | .decInvalidLength => 5
  | .lenOverflow => 6
  | .illegalCmd => 7

/-- STATUS.BUSY (R31, R33). -/
def State.busy (s : State) : Bool := s.ph != .idle

/-- STATUS as the host reads it: ERR_KIND, a reserved 0, ERR, DONE, BUSY (R33). -/
def State.status (s : State) : Byte :=
  s.errKind.code ++ 0#1 ++ BitVec.ofBool s.err ++ BitVec.ofBool s.done ++ BitVec.ofBool s.busy

/-- STATUS.DONE, STATUS.ERR and STATUS.ERR_KIND become 0 (44_system.md R173). -/
def State.clearStatus (s : State) : State := { s with done := false, err := false, errKind := .none }

/-- STATUS.DONE becomes 1 (R174). -/
def State.setDone (s : State) : State := { s with done := true }

/-- STATUS.ERR becomes 1, ERR_KIND the kind and DONE 0 (R190). -/
def State.setErr (s : State) (k : ErrKind) : State := { s with err := true, errKind := k, done := false }

end Sys2Proof.Machine
end

