-- ==== Sys2Proof/Machine/Ops.lean ====
section
/-! DEFINITION. The operations every command shares: acceptance (44_system.md R173), completion (R174), taking a fault (60_exceptions.md R190), the two streams (20_memory.md R53, R54), the host registers (10_state.md section 6), reset (70_reset_and_hazards.md R210). -/

namespace Sys2Proof.Machine

/-- The prologue common to every command (R173): the sticky result of the last operation is forgotten and the
datapath starts from 0. -/
def State.prologue (s : State) : State :=
  { s.clearStatus with errOffset := 0, errByte := 0, acc := 0, pend := 0, idx := 0, outcnt := 0 }

/-- RESULT is written and then done() (R174): PH becomes IDLE and DONE 1. -/
def State.complete (s : State) (result : Nat) : State :=
  State.setDone { s with result := result, ph := .idle }

/-- raise K(info) (R190): TAKING A FAULT. The operation ends in the same step: ERR, ERR_KIND, ERR_BYTE and
ERR_OFFSET say what happened, RESULT is 0 and PH is IDLE. Nothing is saved and control goes nowhere; the return
from a fault is the next command's prologue (R192). -/
def State.raise (s : State) (r : FaultReport) : State :=
  { s.setErr r.kind with errByte := r.byte, errOffset := r.offset, result := 0, ph := .idle }

/-- InGet() and the advance of IDX (R53): the items left after the first are rest. -/
def State.consume (s : State) (rest : List Byte) : State := { s with inp := rest, idx := s.idx + 1 }

/-- OutPut(b) for each item in turn (R54): appended behind everything already put out, OUTCNT counts them. -/
def State.putOut (s : State) (items : List Byte) : State :=
  { s with out := s.out ++ items, outcnt := s.outcnt + items.length }

/-- Whether the sink takes the items of a step (44_system.md R177): a step that puts out none needs no sink. -/
def State.sinkTakes (s : State) (items : List Byte) : Bool := items.isEmpty || s.outReady

/-- A register read (10_state.md section 6, R39): no effect, 0 for CMD and for registers 6 and above. -/
def State.readReg (s : State) (reg : Nat) : Nat :=
  match reg with
  | 0 => 0
  | 1 => s.status.toNat
  | 2 => s.len
  | 3 => s.result
  | 4 => s.errOffset
  | 5 => s.errByte.toNat
  | _ => 0

/-- The bus address of a register (10_state.md section 6). -/
def regAddress (reg : Nat) : Nat := Config.regBase + reg * Config.regStride

/-- A write to LEN: ignored while BUSY = 1 (R34). -/
def State.writeLen (s : State) (data : Nat) : State :=
  if s.busy then s else { s with len := lenBits s.lenW data }

/-- The reset step (R210, R42): every component of the CORE at its reset value; what the host holds (offered items,
items taken, sink, rst pin, events to come) stays with the host (R212). -/
def State.resetCore (s : State) : State :=
  { State.resetAt s.lenW with inp := s.inp, out := s.out, outReady := s.outReady, rst := s.rst, host := s.host }

/-- What a host event changes on the host's own side: the items it offers, its sink, the rst pin (R220). -/
def State.hostSide (s : State) (e : HostEvent) : State :=
  match e with
  | .write _ _ => s
  | .present b => { s with inp := s.inp ++ [b] }
  | .withdraw => { s with inp := [] }
  | .sink r => { s with outReady := r }
  | .rst l => { s with rst := l }
  | .tick => s

end Sys2Proof.Machine
end

