-- ==== Sys2Proof/Machine/Alphabet.lean ====
section
/-! DEFINITION. Alphabet construction (40_alphabet.md): BUILD, the validated path, and LOADB, the trusted path. -/

namespace Sys2Proof.Machine

/-- LOADB of a built-in alphabet (R109): the three components change in this one step. -/
def loadBuiltin (k : Builtin) (s : State) : State := State.complete { s.prologue with alpha := rom k } 0

/-- LOADB ZBASE32 (R109, SEL = 0). -/
def execLoadbZbase32 (s : State) : Host.Outcome State Fault Refusal := .next (loadBuiltin .zbase32 s)

/-- LOADB RFC4648 (R109, SEL = 1). -/
def execLoadbRfc4648 (s : State) : Host.Outcome State Fault Refusal := .next (loadBuiltin .rfc4648 s)

/-- LOADB BECH32 (R109, SEL = 2). -/
def execLoadbBech32 (s : State) : Host.Outcome State Fault Refusal := .next (loadBuiltin .bech32 s)

/-- BUILD start (R101) with the operand ORD: the length check, before any item is consumed. -/
def buildStart (ord : BitOrder) (s : State) : State :=
  if s.len = 32 then { s.prologue with ordLatch := ord, ph := .build }
  else s.prologue.raise .valInvalidLength

/-- BUILD NORMAL (R100, ORD = 0). -/
def execBuildNormal (s : State) : Host.Outcome State Fault Refusal := .next (buildStart .normal s)

/-- BUILD INVERTED (R100, ORD = 1). -/
def execBuildInverted (s : State) : Host.Outcome State Fault Refusal := .next (buildStart .inverted s)

/-- The printable range, 32 to 126 inclusive (R105). -/
def printable (b : Byte) : Bool := decide (32 ≤ b.toNat) && decide (b.toNat ≤ 126)

/-- The unprintable byte at the lowest position, if there is one (R105). -/
def firstUnprintable (syms : List Byte) : Option Byte := syms.find? (fun b => !printable b)

/-- The byte at the lowest position that equals a byte at an earlier one (R106): seen holds the earlier bytes. -/
def firstRepeat (seen : List Byte) (syms : List Byte) : Option Byte :=
  match syms with
  | [] => none
  | b :: rest => if b ∈ seen then some b else firstRepeat (b :: seen) rest

/-- Checks 2 and 3 in order (R107): check 2 over all the symbols before check 3 starts. -/
def symbolFault (syms : List Byte) : Option FaultReport :=
  match firstUnprintable syms with
  | some b => some (.valUnprintableByte b)
  | none =>
    match firstRepeat [] syms with
    | some b => some (.valDuplicatedByte b)
    | none => none

/-- BUILD fill step (R102): STAGE[IDX] <- InGet(), IDX <- IDX + 1. -/
def buildFill (b : Byte) (rest : List Byte) (s : State) : State :=
  State.consume { s with stage := s.stage.set s.idx b } rest

/-- BUILD check and commit step (R103): the fault, or the whole new alphabet at once. -/
def buildCheck (s : State) : State :=
  match symbolFault s.stage.entries with
  | some r => s.raise r
  | none => State.complete { s with alpha := alphabetOf s.stage s.ordLatch } 0

/-- The CORE's step in phase BUILD: fill while IDX < 32 and an item is offered, check at IDX = 32, else hold (R177). -/
def buildStep (s : State) : State :=
  if s.idx < 32 then
    match s.inp with
    | [] => s
    | b :: rest => buildFill b rest s
  else if s.idx = 32 then buildCheck s
  else s

end Sys2Proof.Machine
end

