-- ==== Sys2Proof/Machine/Decoder.lean ====
section
/-! DEFINITION. The decoder (43_decoder.md): DECODE. -/

namespace Sys2Proof.Machine

/-- DECODE start (R151): phase DEC, no length check. -/
def execDecode (s : State) : Host.Outcome State Fault Refusal := .next { s.prologue with ph := .dec }

/-- ACC after the value v has been merged (R153, R154). -/
def decMerge (order : BitOrder) (acc pend v : Nat) : Nat :=
  match order with
  | .normal => (acc <<< 5) ||| v
  | .inverted => acc ||| (v <<< pend)

/-- What one value leaves: the byte put out, if there is one, ACC and PEND. -/
structure Unpacked where
  bytes : List Byte
  acc : Nat
  pend : Nat
  deriving DecidableEq, Repr

/-- One value through the unpacker (R153, R154): at most one byte out. -/
def decUnpack (order : BitOrder) (acc pend v : Nat) : Unpacked :=
  let a := decMerge order acc pend v
  let p := pend + 5
  if 8 ≤ p then
    match order with
    | .normal => { bytes := [mask8 (a >>> (p - 8))], acc := lowBits a (p - 8), pend := p - 8 }
    | .inverted => { bytes := [mask8 a], acc := a >>> 8, pend := p - 8 }
  else { bytes := [], acc := a, pend := p }

/-- Part 2 of the symbol step (R153, R154) with the value v; a hold if the sink does not take the byte (R177). -/
def decodeValue (v : Nat) (rest : List Byte) (s : State) : State :=
  let u := decUnpack s.alpha.order s.acc.toNat s.pend.toNat v
  if s.sinkTakes u.bytes then
    ({ s with acc := toAcc u.acc, pend := toPend u.pend }.putOut u.bytes).consume rest
  else s

/-- The fault of part 1 (R152, R190): the item has been consumed from IN, IDX is not advanced, nothing is put out. -/
def decodeInvalid (c : Byte) (rest : List Byte) (s : State) : State :=
  State.raise { s with inp := rest } (.decInvalidByte s.idx c)

/-- DECODE symbol step (R152): look-up and validation, then R153 or R154. An entry that is neither a 5-bit value nor
the sentinel is in no rule (R218): the machine stops by name, log 5. -/
def decodeSymbol (c : Byte) (rest : List Byte) (s : State) : Host.Outcome State Fault Refusal :=
  if decRead s.alpha c = sentinel then .next (decodeInvalid c rest s)
  else if (decRead s.alpha c).toNat < 32 then .next (decodeValue (decRead s.alpha c).toNat rest s)
  else .fault .decEntryReserved

/-- DECODE finish step (R156): RESULT <- OUTCNT, done(); the left-over bits are dropped without a look. -/
def decodeFinish (s : State) : State := s.complete s.outcnt

/-- The CORE's step in phase DEC: a symbol while IDX < LEN and one is offered, the finish at IDX = LEN, else hold. -/
def decStep (s : State) : Host.Outcome State Fault Refusal :=
  if s.idx < s.len then
    match s.inp with
    | [] => .next s
    | c :: rest => decodeSymbol c rest s
  else if s.idx = s.len then .next (decodeFinish s)
  else .next s

end Sys2Proof.Machine
end

