-- ==== Sys2Proof/Machine/Length.lean ====
section
/-! DEFINITION. Length arithmetic (41_length.md): ENCLEN and DECLEN. -/

namespace Sys2Proof.Machine

/-- The extra symbols X[r] of r left-over bytes (R121). -/
def extraSymbols : Nat → Nat
  | 0 => 0
  | 1 => 2
  | 2 => 4
  | 3 => 5
  | _ => 7

/-- 8*(n/5) + X[n%5], the mathematical value (R121, R122). -/
def encodedSize (n : Nat) : Nat := 8 * (n / 5) + extraSymbols (n % 5)

/-- encoded_length(n): some value if it fits LEN_W bits, none if it does not (R121, R122). -/
def encodedLength (lenW n : Nat) : Option Nat :=
  if encodedSize n ≤ maxLen lenW then some (encodedSize n) else none

/-- decoded_length(n), an upper bound (R124). -/
def decodedLength (n : Nat) : Nat := 5 * (n / 8) + n % 8

/-- ENCLEN (R120). -/
def execEnclen (s : State) : Host.Outcome State Fault Refusal :=
  match encodedLength s.lenW s.len with
  | some m => .next (s.prologue.complete m)
  | none => .next (s.prologue.raise .lenOverflow)

/-- DECLEN (R123). -/
def execDeclen (s : State) : Host.Outcome State Fault Refusal := .next (s.prologue.complete (decodedLength s.len))

end Sys2Proof.Machine
end

