-- ==== Sys2Proof/Machine/Encoder.lean ====
section
/-! DEFINITION. The encoder (42_encoder.md): ENCODE. -/

namespace Sys2Proof.Machine

/-- ENCODE start (R131): the pre-flight check, then phase ENC. -/
def execEncode (s : State) : Host.Outcome State Fault Refusal :=
  match encodedLength s.lenW s.len with
  | some _ => .next { s.prologue with ph := .enc }
  | none => .next (s.prologue.raise .lenOverflow)

/-- ACC after the new byte has been merged (R132, R133): below the pending bits in Normal order, above them in
Inverted order. -/
def encMerge (order : BitOrder) (acc pend : Nat) (b : Byte) : Nat :=
  match order with
  | .normal => (acc <<< 8) ||| b.toNat
  | .inverted => acc ||| (b.toNat <<< pend)

/-- What the loop "while PEND >= 5" leaves (R132, R133): the values put out in order, ACC and PEND. -/
structure Drained where
  values : List Val5
  acc : Nat
  pend : Nat
  deriving DecidableEq, Repr

/-- The loop "while PEND >= 5" (R132, R133); each turn takes 5 from PEND, so PEND turns are enough fuel. -/
def encDrain (order : BitOrder) (fuel acc pend : Nat) : Drained :=
  match fuel with
  | 0 => { values := [], acc := acc, pend := pend }
  | fuel + 1 =>
    if 5 ≤ pend then
      match order with
      | .normal =>
        let d := encDrain order fuel acc (pend - 5)
        { d with values := mask5 (acc >>> (pend - 5)) :: d.values }
      | .inverted =>
        let d := encDrain order fuel (acc >>> 5) (pend - 5)
        { d with values := mask5 acc :: d.values }
    else { values := [], acc := acc, pend := pend }

/-- One byte through the packer (R132, R133): merge, drain, and in Normal order keep only the pending low bits. -/
def encPack (order : BitOrder) (acc pend : Nat) (b : Byte) : Drained :=
  let d := encDrain order (pend + 8) (encMerge order acc pend b) (pend + 8)
  match order with
  | .normal => { d with acc := lowBits d.acc d.pend }
  | .inverted => d

/-- The symbols of a list of values under an alphabet: ENC_LUT[v] for each. -/
def symbolsOf (a : Alphabet) (vs : List Val5) : List Byte := vs.map (encRead a)

/-- ENCODE byte step (R132, R133): one item in, its symbols out, in the same step; a hold if the sink does not
take them (R177). -/
def encodeByte (b : Byte) (rest : List Byte) (s : State) : State :=
  let d := encPack s.alpha.order s.acc.toNat s.pend.toNat b
  let items := symbolsOf s.alpha d.values
  if s.sinkTakes items then
    ({ s with acc := toAcc d.acc, pend := toPend d.pend }.putOut items).consume rest
  else s

/-- The values of the finish step (R135): one zero-filled value if bits are pending, else none. -/
def encLast (order : BitOrder) (acc pend : Nat) : List Val5 :=
  if 0 < pend then
    match order with
    | .normal => [mask5 (acc <<< (5 - pend))]
    | .inverted => [mask5 acc]
  else []

/-- ENCODE finish step (R135). -/
def encodeFinish (s : State) : State :=
  let items := symbolsOf s.alpha (encLast s.alpha.order s.acc.toNat s.pend.toNat)
  if s.sinkTakes items then (s.putOut items).complete (s.outcnt + items.length) else s

/-- The CORE's step in phase ENC: a byte while IDX < LEN and one is offered, the finish at IDX = LEN, else hold. -/
def encStep (s : State) : State :=
  if s.idx < s.len then
    match s.inp with
    | [] => s
    | b :: rest => encodeByte b rest s
  else if s.idx = s.len then encodeFinish s
  else s

end Sys2Proof.Machine
end

