-- ==== Sys2Proof/Machine/System.lean ====
section
/-! DEFINITION. The system operation CLR (44_system.md R175). -/

namespace Sys2Proof.Machine

/-- CLR: the prologue, then RESULT <- 0 and done() (R175). -/
def execClr (s : State) : Host.Outcome State Fault Refusal := .next (s.prologue.complete 0)

end Sys2Proof.Machine
end

