-- ==== Sys2Proof/Machine/Dispatch.lean ====
section
/-! DEFINITION. exec: the acceptance step of each command (44_system.md R173), one arm per constructor of Instr. -/

namespace Sys2Proof.Machine

def exec (i : Instr) (s : State) : Host.Outcome State Fault Refusal :=
  match i with
  | .clr => Sys2Proof.Machine.execClr s
  | .loadbZbase32 => Sys2Proof.Machine.execLoadbZbase32 s
  | .loadbRfc4648 => Sys2Proof.Machine.execLoadbRfc4648 s
  | .loadbBech32 => Sys2Proof.Machine.execLoadbBech32 s
  | .buildNormal => Sys2Proof.Machine.execBuildNormal s
  | .buildInverted => Sys2Proof.Machine.execBuildInverted s
  | .enclen => Sys2Proof.Machine.execEnclen s
  | .declen => Sys2Proof.Machine.execDeclen s
  | .encode => Sys2Proof.Machine.execEncode s
  | .decode => Sys2Proof.Machine.execDecode s

end Sys2Proof.Machine
end

