-- ==== Sys2Proof/Machine/Sequencer.lean ====
section
/-! DEFINITION. What one step does (44_system.md R171): the CORE's own step by phase, the acceptance of a command, the host's events, the reset step. -/

namespace Sys2Proof.Machine

/-- The CORE's own step (R171 b to g): by phase; an idle CORE waits for a command. -/
def coreStep (s : State) : Host.Outcome State Fault Refusal :=
  match s.ph with
  | .idle => .next s
  | .build => .next (buildStep s)
  | .enc => .next (encStep s)
  | .dec => decStep s

/-- Acceptance of the word w (R173): a command runs; any other word is ILLEGAL_CMD after the prologue (R188). -/
def acceptCommand (w : Byte) (s : State) : Host.Outcome State Fault Refusal :=
  match decode w with
  | .command i => exec i s
  | .illegal _ => .next (s.prologue.raise .illegalCmd)

/-- A host write (10_state.md R32, R34, R39): CMD and LEN while BUSY = 0 have an effect, nothing else does. CMD takes
the low 8 bits of the data (log 4). -/
def writeReg (reg data : Nat) (s : State) : Host.Outcome State Fault Refusal :=
  match reg with
  | 0 => if s.busy then .next s else acceptCommand (BitVec.ofNat 8 data) s
  | 2 => .next (s.writeLen data)
  | _ => .next s

/-- One host event while rst is 0 (70_reset_and_hazards.md R220). -/
def hostStep (e : HostEvent) (s : State) : Host.Outcome State Fault Refusal :=
  match e with
  | .write reg data => writeReg reg data s
  | .present b => .next (s.hostSide (.present b))
  | .withdraw => .next (s.hostSide .withdraw)
  | .sink r => .next (s.hostSide (.sink r))
  | .rst true => .next (s.hostSide (.rst true)).resetCore
  | .rst false => .next s
  | .tick => coreStep s

/-- A step while rst is 1 (R210): a reset step; register writes and port transfers have no effect. -/
def resetStep (s : State) : State :=
  match s.host with
  | [] => s.resetCore
  | e :: rest => (State.hostSide { s with host := rest } e).resetCore

/-- One step: the reset step while rst is 1, else the next host event, else the CORE's own step. -/
def oneStep (s : State) : Host.Outcome State Fault Refusal :=
  if s.rst then .next (resetStep s)
  else
    match s.host with
    | [] => coreStep s
    | e :: rest => hostStep e { s with host := rest }

/-- The state in which the next step is the acceptance of the word w: the CORE is idle, rst is released and the next
host event writes w to CMD. Log 3. -/
def placeCommand (s : State) (w : Byte) : State :=
  { s with ph := .idle, rst := false, host := .write 0 w.toNat :: s.host }

end Sys2Proof.Machine
end

