-- ==== Sys2Proof/Machine/Ports.lean ====
section
/-! DEFINITION. The port signals the CORE drives (10_state.md R40, R41), computed from the state. -/

namespace Sys2Proof.Machine

/-- The items the CORE's next own step puts out once the sink takes them (R54, R65). DESIGN CHOICE, log 8: the CORE
offers them from the moment that step waits for nothing but the sink. -/
def State.offered (s : State) : List Byte :=
  match coreStep { s with outReady := true } with
  | .next t => t.out.drop s.out.length
  | .fault _ => []
  | .refused _ => []

/-- out_valid: the CORE offers an item. DESIGN CHOICE when it rises, log 8. -/
def State.outValid (s : State) : Bool := !s.offered.isEmpty

/-- out_data: the item offered first; no value while out_valid is 0 (R42: unspecified). -/
def State.outData (s : State) : Option Byte := s.offered.head?

/-- in_ready: 1 only while the CORE is in a phase that consumes input and IDX < LEN (R40). DESIGN CHOICE, log 8: within
that it is 1 unless the next own step is held by the sink (R177). In a sink hold it is 0, because that step takes no item
and an item moves when valid and ready are both 1 (R65). -/
def State.inReady (s : State) : Bool :=
  s.busy && decide (s.idx < s.len) && (!s.outValid || s.outReady)

/-- The level output done (R41). -/
def State.donePin (s : State) : Bool := s.done

/-- The level output err (R41). -/
def State.errPin (s : State) : Bool := s.err

end Sys2Proof.Machine
end

