-- ==== Sys2Proof/Machine/Step.lean ====
section
/-! DEFINITION. step, the one transition function of the machine, and withFetchWord, which places a command as the next thing step runs. -/

namespace Sys2Proof.Machine

/-- One step of the machine (44_system.md R171): a next state, or the one stop of `Fault`. -/
def step (s : State) : Host.Outcome State Fault Refusal := oneStep s

/-- s with the command word w (its low nbits bits, one byte) as what the very next step accepts. -/
def State.withFetchWord (s : State) (nbits w : Nat) : State := placeCommand s (BitVec.ofNat 8 (w % 2 ^ nbits))

end Sys2Proof.Machine
end

