-- ==== Sys2Proof/Machine/WholeOp.lean ====
section
/-! DEFINITION. The operations as functions, "for a model that does not want the steps": BUILD (40_alphabet.md R100), ENCODE (42_encoder.md R136, by 30_encoding.md R82, R83), DECODE (43_decoder.md R158, by 30_encoding.md R84). The step machine does not use them; statements compare it with them. -/

namespace Sys2Proof.Machine

/-- The number whose digits to a base are the list, the first digit least significant. -/
def littleEndian (base : Nat) : List Nat → Nat
  | [] => 0
  | d :: ds => d + base * littleEndian base ds

/-- The number whose digits to a base are the list, the first digit most significant. -/
def bigEndian (base : Nat) (ds : List Nat) : Nat := littleEndian base ds.reverse

/-- The values v_k, k = 0..m-1, of an input (R82 in Normal order, R83 in Inverted order). -/
def encodeValues (order : BitOrder) (bytes : List Byte) : List Val5 :=
  let n := bytes.length
  let m := encodedSize n
  match order with
  | .normal =>
    let N := bigEndian 256 (bytes.map BitVec.toNat) <<< (5 * m - 8 * n)
    (List.range m).map (fun k => mask5 (N >>> (5 * (m - 1 - k))))
  | .inverted =>
    let N := littleEndian 256 (bytes.map BitVec.toNat)
    (List.range m).map (fun k => mask5 (N >>> (5 * k)))

/-- encode(alpha, bytes): the symbols of the values (R136). -/
def encodeWhole (a : Alphabet) (bytes : List Byte) : List Byte := symbolsOf a (encodeValues a.order bytes)

/-- The (5*m)/8 bytes of m values (R84, closed forms). -/
def decodeBytes (order : BitOrder) (vs : List Val5) : List Byte :=
  let m := vs.length
  let k := 5 * m / 8
  match order with
  | .normal =>
    let M := bigEndian 32 (vs.map BitVec.toNat)
    (List.range k).map (fun j => mask8 (M >>> (5 * m - 8 * (j + 1))))
  | .inverted =>
    let M := littleEndian 32 (vs.map BitVec.toNat)
    (List.range k).map (fun j => mask8 (M >>> (8 * j)))

/-- The 5-bit value of a symbol, meant for symbols of the alphabet only. -/
def valueOf (a : Alphabet) (c : Byte) : Val5 := mask5 (decRead a c).toNat

/-- The first item that is no symbol of the alphabet, with its offset counted from the one given (R158). -/
def firstInvalid (a : Alphabet) (offset : Nat) : List Byte → Option (Nat × Byte)
  | [] => none
  | c :: cs => if decRead a c = sentinel then some (offset, c) else firstInvalid a (offset + 1) cs

/-- decode(alpha, syms): the fault at the least offset, or the bytes (R158). -/
def decodeWhole (a : Alphabet) (syms : List Byte) : Except FaultReport (List Byte) :=
  match firstInvalid a 0 syms with
  | some (i, c) => .error (.decInvalidByte i c)
  | none => .ok (decodeBytes a.order (syms.map (valueOf a)))

/-- build(symbols, ord): the first check that fails, or the alphabet (R100). -/
def buildWhole (syms : List Byte) (ord : BitOrder) : Except FaultReport Alphabet :=
  if h : syms.length = 32 then
    match symbolFault syms with
    | some r => .error r
    | none => .ok (alphabetOf { entries := syms, size_eq := h } ord)
  else .error .valInvalidLength

end Sys2Proof.Machine
end

