-- ==== Sys2Proof/Safety.lean ====
section
/-! DEFINITION. The invariants of the CORE, in the terms the statements use: R24 for an alphabet; R24, R26, R28, R29, R38 and the widths for a state. -/

namespace Sys2Proof.Machine

/-- The invariants of an alphabet (10_state.md R24 b, c, d; a is the table's length). -/
structure Alphabet.Wf (a : Alphabet) : Prop where
  /-- R24 b: every symbol is printable. -/
  printable : ∀ i : Fin 32, 32 ≤ (a.enc.get i).toNat ∧ (a.enc.get i).toNat ≤ 126
  /-- R24 c: no duplicate symbols. -/
  distinct : ∀ i j : Fin 32, a.enc.get i = a.enc.get j → i = j
  /-- R24 d: every symbol maps back to its index. -/
  inverse_hit : ∀ i : Fin 32, decRead a (a.enc.get i) = BitVec.ofNat 8 i.val
  /-- R24 d: every other byte maps to the sentinel. -/
  inverse_miss : ∀ b : Byte, (∀ i : Fin 32, a.enc.get i ≠ b) → decRead a b = sentinel

/-- The invariants of the state, between any two steps. -/
structure State.Inv (s : State) : Prop where
  /-- LEN_W >= 8 (R7). -/
  width : 8 ≤ s.lenW
  /-- The active alphabet (R24). -/
  alphabet : s.alpha.Wf
  /-- At most one of BUSY, DONE, ERR is 1 (R38). -/
  one_flag : (s.busy && s.done) = false ∧ (s.busy && s.err) = false ∧ (s.done && s.err) = false
  /-- ERR = 1 exactly when ERR_KIND != 0 (R38). -/
  err_kind : s.err = true ↔ s.errKind ≠ .none
  /-- ERR = 0 implies ERR_OFFSET = 0 and ERR_BYTE = 0 (R38). -/
  err_clear : s.err = false → s.errOffset = 0 ∧ s.errByte = 0
  /-- The reserved kind is never raised (R186). -/
  no_reserved_kind : s.errKind ≠ .decInvalidLength
  /-- The registers of LEN_W bits hold what LEN_W bits can (R28, R29, R34, R35, R36). -/
  len_fits : s.len ≤ maxLen s.lenW
  result_fits : s.result ≤ maxLen s.lenW
  errOffset_fits : s.errOffset ≤ maxLen s.lenW
  idx_fits : s.idx ≤ maxLen s.lenW
  outcnt_fits : s.outcnt ≤ maxLen s.lenW
  /-- In BUILD: LEN = 32, at most 32 items consumed, nothing put out (R101, R102). -/
  building : s.ph = .build → s.len = 32 ∧ s.idx ≤ 32 ∧ s.outcnt = 0
  /-- In ENC: IDX <= LEN (R28), the output fits (R131), PEND and OUTCNT by position (R134), ACC < 2^PEND (R26). -/
  encoding : s.ph = .enc → s.idx ≤ s.len ∧ encodedSize s.len ≤ maxLen s.lenW ∧ s.pend.toNat = 8 * s.idx % 5 ∧
    s.acc.toNat < 2 ^ s.pend.toNat ∧ s.outcnt = 8 * s.idx / 5
  /-- In DEC: IDX <= LEN (R28), PEND and OUTCNT by position (R155), ACC < 2^PEND (R26). -/
  decoding : s.ph = .dec → s.idx ≤ s.len ∧ s.pend.toNat = 5 * s.idx % 8 ∧
    s.acc.toNat < 2 ^ s.pend.toNat ∧ s.outcnt = 5 * s.idx / 8

/-- The next step takes the host event e and leaves the events rest: rst is released. -/
def State.nextEvent (s : State) (e : HostEvent) (rest : List HostEvent) : Prop :=
  s.rst = false ∧ s.host = e :: rest

/-- The next step is the CORE's own: rst is released and no host event comes first. -/
def State.coreRuns (s : State) : Prop := s.rst = false ∧ s.host = []

/-- k steps from s lead to t, with no stop on the way. -/
def State.runsTo (s : State) (k : Nat) (t : State) : Prop := Host.Core.run Sys2Proof.core k s = .next t

/-- LOADB of the built-in alphabet k (30_encoding.md R73). -/
def loadbCommand : Builtin → Instr
  | .zbase32 => .loadbZbase32
  | .rfc4648 => .loadbRfc4648
  | .bech32 => .loadbBech32

/-- BUILD with the operand ORD (30_encoding.md R72). -/
def buildCommand : BitOrder → Instr
  | .normal => .buildNormal
  | .inverted => .buildInverted

/-- The host is about to have the command i accepted (70_reset_and_hazards.md R213): the CORE is idle, LEN is the
number of the items offered first on IN, rest are offered behind them, the sink is ready, nothing else comes. -/
structure State.readyFor (s : State) (i : Instr) (items rest : List Byte) : Prop where
  idle : s.ph = .idle
  released : s.rst = false
  script : s.host = [.write 0 (encode i).toNat]
  offered : s.inp = items ++ rest
  length : s.len = items.length
  sink : s.outReady = true

/-- What an operation that began in s and has ended in t leaves as it was: LEN, LEN_W and the host's pins. -/
structure State.endedFrame (s t : State) : Prop where
  idle : t.ph = .idle
  len : t.len = s.len
  lenW : t.lenW = s.lenW
  outReady : t.outReady = s.outReady
  rst : t.rst = s.rst
  host : t.host = []

/-- The operation that began in s has completed in t with RESULT m, has put out the items put and has left the items
rest on IN. Nothing is said of the dead values (93_implementation_defined.md U10). -/
structure State.completedAs (s t : State) (m : Nat) (put rest : List Byte) : Prop where
  frame : s.endedFrame t
  status : t.status = 0x02#8
  result : t.result = m
  errOffset : t.errOffset = 0
  errByte : t.errByte = 0
  out : t.out = s.out ++ put
  inp : t.inp = rest

/-- The operation that began in s has faulted in t with the report r and has left the items rest on IN. What a DECODE
has put out is void and not said (U11). -/
structure State.faultedAs (s t : State) (r : FaultReport) (rest : List Byte) : Prop where
  frame : s.endedFrame t
  status : t.status.toNat = 16 * r.kind.code.toNat + 4
  result : t.result = 0
  errOffset : t.errOffset = r.offset
  errByte : t.errByte = r.byte
  out : s.out <+: t.out
  inp : t.inp = rest
  alpha : t.alpha = s.alpha

end Sys2Proof.Machine
end

