-- ==== Sys2Proof/Certificates/Slice0/Obligations.lean ====
section
/-! DEFINITION. The statements for the provers, from the numbered rules of spec/. Each docstring names the rules it formalises or rests on. -/

section
open Sys2Proof Sys2Proof.Machine

/-! ### Reset and the invariants -/

/-- R42: every component after reset, at every LEN_W; the port outputs are 0. -/
def Obligations.ResetGivesEveryComponentItsValue : Prop :=
  ∀ w : Nat,
    (∀ i : Fin 32, (State.resetAt w).alpha.enc.get i = (romSym .zbase32).get i) ∧
    (∀ i : Fin 32, decRead (State.resetAt w).alpha ((romSym .zbase32).get i) = BitVec.ofNat 8 i.val) ∧
    (∀ b : Byte, (∀ i : Fin 32, (romSym .zbase32).get i ≠ b) → decRead (State.resetAt w).alpha b = 0xFF#8) ∧
    (State.resetAt w).alpha.order = .inverted ∧
    (State.resetAt w).acc = 0 ∧ (State.resetAt w).pend = 0 ∧ (State.resetAt w).idx = 0 ∧
    (State.resetAt w).outcnt = 0 ∧ (∀ i : Fin 32, (State.resetAt w).stage.get i = 0) ∧
    (State.resetAt w).ordLatch = .normal ∧ (State.resetAt w).ph = .idle ∧ (State.resetAt w).status = 0x00#8 ∧
    (∀ reg : Nat, (State.resetAt w).readReg reg = 0) ∧
    (State.resetAt w).inReady = false ∧ (State.resetAt w).outValid = false ∧
    (State.resetAt w).donePin = false ∧ (State.resetAt w).errPin = false

/-- R24, R38 and the widths hold after reset, at every LEN_W >= 8. -/
def Obligations.ResetMeetsTheInvariants : Prop :=
  ∀ w : Nat, 8 ≤ w → (State.resetAt w).Inv

/-- R24, R26, R28, R29, R38: "They hold after reset and after every step". -/
def Obligations.EveryStepKeepsTheInvariants : Prop :=
  ∀ s t : State, s.Inv → step s = .next t → t.Inv

/-- R193: "A fault never stops the CORE for good": under the invariants every step has a next state. -/
def Obligations.NoStepStopsUnderTheInvariants : Prop :=
  ∀ s : State, s.Inv → ∃ t, step s = .next t

/-- R7, R20: LEN_W is a parameter, no step changes it. -/
def Obligations.NoStepChangesLenW : Prop :=
  ∀ s t : State, step s = .next t → t.lenW = s.lenW

/-- R24, consequences: exactly 32 entries of DEC_LUT differ from 0xFF, those at 0 to 31 and 127 to 255 are 0xFF, and an
entry that is not 0xFF leads back to its byte. -/
def Obligations.DecodeTableIsTheInverse : Prop :=
  ∀ a : Alphabet, a.Wf →
    (a.dec.entries.filter (fun e => e != 0xFF#8)).length = 32 ∧
    (∀ b : Byte, b.toNat ≤ 31 ∨ 127 ≤ b.toNat → decRead a b = 0xFF#8) ∧
    (∀ b : Byte, decRead a b ≠ 0xFF#8 → (decRead a b).toNat < 32 ∧ encRead a (BitVec.ofNat 5 (decRead a b).toNat) = b)

/-- R25 with R110: the codes of ROM are those of the three strings, with their orders. -/
def Obligations.RomHoldsTheThreeStrings : Prop :=
  (romSym .zbase32).entries = "ybndrfg8ejkmcpqxot1uwisza345h769".toList.map (fun c => BitVec.ofNat 8 c.toNat) ∧
  romOrder .zbase32 = .inverted ∧
  (romSym .rfc4648).entries = "ABCDEFGHIJKLMNOPQRSTUVWXYZ234567".toList.map (fun c => BitVec.ofNat 8 c.toNat) ∧
  romOrder .rfc4648 = .normal ∧
  (romSym .bech32).entries = "qpzry9x8gf2tvdw0s3jn54khce6mua7l".toList.map (fun c => BitVec.ofNat 8 c.toNat) ∧
  romOrder .bech32 = .normal

/-- R210, R212: while rst is 1 every component of the CORE takes its reset value, whatever it held; a register write has
no effect and no item crosses a port; items not consumed stay with the host. The model's reading, log 10: the step that
raises rst is itself a reset step (R220's row "assert rst" gives reset as its effect), and the event that lowers rst takes
effect after a step that is still a reset step. The model's choice, log 2: of a host event only the host's own side moves. -/
def Obligations.ResetStepRestoresEveryComponent : Prop :=
  ∀ s : State,
    (s.rst = true → s.host = [] → step s = .next { State.resetAt s.lenW with
      inp := s.inp, out := s.out, outReady := s.outReady, rst := true, host := [] }) ∧
    (∀ e rest, s.rst = true → s.host = e :: rest → step s = .next { State.resetAt s.lenW with
      inp := (s.hostSide e).inp, out := s.out, outReady := (s.hostSide e).outReady, rst := (s.hostSide e).rst, host := rest }) ∧
    (∀ reg data, s.hostSide (.write reg data) = s) ∧ (∀ e, e ≠ .rst false → s.rst = true → (s.hostSide e).rst = true) ∧
    (∀ rest, s.nextEvent (.rst true) rest → step s = .next { State.resetAt s.lenW with
      inp := s.inp, out := s.out, outReady := s.outReady, rst := true, host := rest })

/-! ### The command word -/

/-- R71: the legal words are exactly the ten of the table, and the whole byte is matched. -/
def Obligations.LegalWordsAreTheTenOfTheTable : Prop :=
  (∀ (w : Byte) (i : Instr), decode w = .command i ↔ encode i = w) ∧
  encode .clr = 0x00#8 ∧ encode .loadbZbase32 = 0x01#8 ∧ encode .loadbRfc4648 = 0x11#8 ∧
  encode .loadbBech32 = 0x21#8 ∧ encode .buildNormal = 0x02#8 ∧ encode .buildInverted = 0x0A#8 ∧
  encode .enclen = 0x03#8 ∧ encode .declen = 0x04#8 ∧ encode .encode = 0x05#8 ∧ encode .decode = 0x06#8

/-- R70, R73, R74: a word is a command exactly when bits 7:6 are 0, OP is not 7, SEL is 0 but in LOADB and not 3 there,
and ORD is 0 but in BUILD. -/
def Obligations.FieldRuleDecidesLegality : Prop :=
  ∀ w : Byte, (∃ i, decode w = .command i) ↔
    (w.extractLsb' 6 2 = 0#2 ∧ w.extractLsb' 0 3 ≠ 7#3 ∧
     (w.extractLsb' 4 2 = 0#2 ∨ (w.extractLsb' 0 3 = 1#3 ∧ w.extractLsb' 4 2 ≠ 3#2)) ∧
     (w.extractLsb' 3 1 = 0#1 ∨ w.extractLsb' 0 3 = 2#3))

/-- A few words written out from R71 decode to their commands, and a few of R74 to none. -/
def Obligations.SampleWordsDecode : Prop :=
  decodeTableWord 8 0b00000000 = some .clr ∧ decodeTableWord 8 0b00010001 = some .loadbRfc4648 ∧
  decodeTableWord 8 0b00001010 = some .buildInverted ∧ decodeTableWord 8 0b00000011 = some .enclen ∧
  decodeTableWord 8 0b00000101 = some .encode ∧ decodeTableWord 8 0b00000110 = some .decode ∧
  decodeTableWord 8 0x07 = none ∧ decodeTableWord 8 0x31 = none ∧ decodeTableWord 8 0x09 = none ∧
  decodeTableWord 8 0x15 = none

/-- R173: a write to CMD while BUSY = 0 of a word that decodes to i is the step exec i, after the event is taken. -/
def Obligations.CmdWriteRunsTheDecodedCommand : Prop :=
  ∀ (s : State) (w : Byte) (rest : List HostEvent) (i : Instr),
    s.nextEvent (.write 0 w.toNat) rest → s.busy = false → decode w = .command i →
    step s = exec i { s with host := rest }

/-- The model's own: withFetchWord makes the very next step the acceptance of the word (log 3). -/
def Obligations.FetchWordIsAcceptedNext : Prop :=
  ∀ (s : State) (i : Instr), step (s.withFetchWord 8 (encode i).toNat) = exec i { s with ph := .idle, rst := false }

/-- R74, R188: a word outside the table, written while BUSY = 0, ends at once as ILLEGAL_CMD and starts nothing. -/
def Obligations.IllegalWordFaultsAtOnce : Prop :=
  ∀ (s : State) (w : Byte) (rest : List HostEvent),
    s.nextEvent (.write 0 w.toNat) rest → s.busy = false → (∀ i, encode i ≠ w) →
    ∃ t, step s = .next t ∧ t.status = 0x74#8 ∧
      t = { s with
        host := rest, ph := .idle, done := false, err := true, errKind := .illegalCmd, errOffset := 0, errByte := 0
        result := 0, acc := 0, pend := 0, idx := 0, outcnt := 0 }

/-! ### The host registers and ports -/

/-- R32, R34, R214: a register write while BUSY = 1 changes nothing (but that the event is over). -/
def Obligations.BusyCoreIgnoresRegisterWrites : Prop :=
  ∀ (s : State) (reg data : Nat) (rest : List HostEvent),
    s.nextEvent (.write reg data) rest → s.busy = true → step s = .next { s with host := rest }

/-- R35, R36, R37, R39: registers 3, 4 and 5 read RESULT, ERR_OFFSET and ERR_BYTE; reserved registers read 0 and ignore
writes, CMD reads 0, the read-only registers ignore writes. (Register 1: StatusRegisterFields; register 2:
LenWriteTakesTheValueWhenIdle.) -/
def Obligations.ReservedAndReadOnlyRegisters : Prop :=
  (∀ s : State, s.readReg 3 = s.result ∧ s.readReg 4 = s.errOffset ∧ s.readReg 5 = s.errByte.toNat) ∧
  (∀ (s : State) (reg : Nat), reg = 0 ∨ 6 ≤ reg → s.readReg reg = 0) ∧
  (∀ (s : State) (reg data : Nat) (rest : List HostEvent), reg ≠ 0 → reg ≠ 2 →
    s.nextEvent (.write reg data) rest → step s = .next { s with host := rest })

/-- R34: LEN takes any value 0 to MAXLEN the host writes while BUSY = 0, reads back, and a write while BUSY = 1 is
ignored. -/
def Obligations.LenWriteTakesTheValueWhenIdle : Prop :=
  ∀ (s : State) (data : Nat) (rest : List HostEvent),
    s.nextEvent (.write 2 data) rest → data ≤ 2 ^ s.lenW - 1 →
    (s.busy = false → step s = .next { s with host := rest, len := data }) ∧
    (s.busy = true → step s = .next { s with host := rest }) ∧
    s.readReg 2 = s.len

/-- R33, R31: the fields of STATUS as the host reads them; BUSY is 1 exactly when PH is not IDLE; bit 3 is 0. -/
def Obligations.StatusRegisterFields : Prop :=
  ∀ s : State,
    s.readReg 1 = (if s.ph = .idle then 0 else 1) + 2 * s.done.toNat + 4 * s.err.toNat + 16 * s.errKind.code.toNat ∧
    (s.status.extractLsb' 3 1) = 0#1

/-- R40, R41, R65: in_ready is 1 only in a consuming phase with IDX < LEN; the level outputs equal DONE and ERR; in the
CORE's own step the item offered on IN moves exactly when in_ready is 1, and items move over OUT exactly when out_valid
and the sink's readiness are both 1, out_data first. When out_valid rises, and that in_ready is 0 in a sink hold and 1
otherwise, is the model's choice, log 8; that in_valid is "an item stands in inp" is log 2. -/
def Obligations.PortSignalsFollowTheState : Prop :=
  ∀ s : State,
    (s.inReady = true → s.ph ≠ .idle ∧ s.idx < s.len) ∧ s.donePin = s.done ∧ s.errPin = s.err ∧
    (s.Inv → ∀ t, coreStep s = .next t →
      (t.inp ≠ s.inp ↔ s.inp ≠ [] ∧ s.inReady = true) ∧
      (t.out ≠ s.out ↔ s.outValid = true ∧ s.outReady = true) ∧
      (∀ b, s.outData = some b → s.outReady = true → (s.out ++ [b]) <+: t.out))

/-- R171, R221: the CORE takes its own step when no host event comes first, and when the host lets it (tick, log 2);
exactly then the statements about coreStep are about step. -/
def Obligations.CoreTakesItsOwnStepWhenTheHostLetsIt : Prop :=
  ∀ s : State, (s.coreRuns → step s = coreStep s) ∧
    (∀ rest, s.nextEvent .tick rest → step s = coreStep { s with host := rest })

/-- R220: presenting, withdrawing and the sink change only the host's own side; the CORE moves on none of them. -/
def Obligations.HostSideEventsLeaveTheCore : Prop :=
  ∀ (s : State) (rest : List HostEvent),
    (∀ b, s.nextEvent (.present b) rest → step s = .next { s with host := rest, inp := s.inp ++ [b] }) ∧
    (s.nextEvent .withdraw rest → step s = .next { s with host := rest, inp := [] }) ∧
    (∀ r, s.nextEvent (.sink r) rest → step s = .next { s with host := rest, outReady := r })

/-! ### Taking a fault -/

/-- R190 with the codes of R181: what raise leaves, for every fault, and all it leaves alone. -/
def Obligations.RaiseWritesKindPayloadAndEndsTheOperation : Prop :=
  (∀ (s : State) (r : FaultReport),
    s.raise r = { s with
      err := true, errKind := r.kind, done := false, errByte := r.byte, errOffset := r.offset, result := 0, ph := .idle } ∧
    (s.raise r).status.toNat = 16 * r.kind.code.toNat + 4) ∧
  (FaultReport.valInvalidLength.kind.code = 1#4 ∧ FaultReport.valInvalidLength.byte = 0 ∧
    FaultReport.valInvalidLength.offset = 0) ∧
  (∀ b : Byte, (FaultReport.valUnprintableByte b).kind.code = 2#4 ∧ (FaultReport.valUnprintableByte b).byte = b ∧
    (FaultReport.valUnprintableByte b).offset = 0) ∧
  (∀ b : Byte, (FaultReport.valDuplicatedByte b).kind.code = 3#4 ∧ (FaultReport.valDuplicatedByte b).byte = b ∧
    (FaultReport.valDuplicatedByte b).offset = 0) ∧
  (∀ (i : Nat) (b : Byte), (FaultReport.decInvalidByte i b).kind.code = 4#4 ∧ (FaultReport.decInvalidByte i b).byte = b ∧
    (FaultReport.decInvalidByte i b).offset = i) ∧
  (∀ n : Nat, (FaultReport.decInvalidLength n).kind.code = 5#4) ∧
  (FaultReport.lenOverflow.kind.code = 6#4 ∧ FaultReport.lenOverflow.byte = 0 ∧ FaultReport.lenOverflow.offset = 0) ∧
  (FaultReport.illegalCmd.kind.code = 7#4 ∧ FaultReport.illegalCmd.byte = 0 ∧ FaultReport.illegalCmd.offset = 0)

/-- R191 a, b: in a step after which ERR is 1 the alphabet is as before, and LEN unless the host wrote it. -/
def Obligations.FaultsLeaveAlphabetAndLen : Prop :=
  ∀ s t : State, s.Inv → step s = .next t → t.err = true →
    t.alpha = s.alpha ∧ (t.len = s.len ∨ ∃ data rest, s.nextEvent (.write 2 data) rest)

/-! ### CLR and LOADB -/

/-- R175: CLR clears the completion status; STATUS = 0x02 after it; alphabet, LEN and all else as before. -/
def Obligations.ClrClearsTheCompletionStatus : Prop :=
  encode .clr = 0x00#8 ∧
  ∀ s : State, ∃ t, exec .clr s = .next t ∧ t.status = 0x02#8 ∧
    t = { s with
      ph := .idle, done := true, err := false, errKind := .none, errOffset := 0, errByte := 0, result := 0
      acc := 0, pend := 0, idx := 0, outcnt := 0 }

/-- R109: LOADB k makes built-in alphabet k active, whole, in one step; no input, no output, LEN ignored. -/
def Obligations.LoadbMakesTheBuiltinActive : Prop :=
  encode .loadbZbase32 = 0x01#8 ∧ encode .loadbRfc4648 = 0x11#8 ∧ encode .loadbBech32 = 0x21#8 ∧
  ∀ (k : Builtin) (s : State), ∃ t, exec (loadbCommand k) s = .next t ∧ t.status = 0x02#8 ∧
    (∀ i : Fin 32, t.alpha.enc.get i = (romSym k).get i) ∧
    (∀ i : Fin 32, decRead t.alpha ((romSym k).get i) = BitVec.ofNat 8 i.val) ∧
    (∀ b : Byte, (∀ i : Fin 32, (romSym k).get i ≠ b) → decRead t.alpha b = 0xFF#8) ∧
    t.alpha.order = romOrder k ∧
    t = { s with
      alpha := t.alpha, ph := .idle, done := true, err := false, errKind := .none, errOffset := 0, errByte := 0
      result := 0, acc := 0, pend := 0, idx := 0, outcnt := 0 }

/-- R44: the alphabet changes only in a reset step, in LOADB and in the commit of a BUILD that passed its checks. -/
def Obligations.AlphabetChangesInThreeEventsOnly : Prop :=
  ∀ s t : State, step s = .next t → t.alpha ≠ s.alpha →
    ((s.rst = true ∨ ∃ rest, s.nextEvent (.rst true) rest) ∧ t.alpha = rom .zbase32) ∨
    (∃ k data rest, s.nextEvent (.write 0 data) rest ∧ s.busy = false ∧
      decode (BitVec.ofNat 8 data) = .command (loadbCommand k) ∧ t.alpha = rom k) ∨
    (s.ph = .build ∧ s.idx = 32 ∧ t.done = true ∧
      (∀ i : Fin 32, 32 ≤ (s.stage.get i).toNat ∧ (s.stage.get i).toNat ≤ 126) ∧
      (∀ i j : Fin 32, s.stage.get i = s.stage.get j → i = j) ∧
      t.alpha = alphabetOf s.stage s.ordLatch)

/-! ### BUILD -/

/-- R101: BUILD with LEN other than 32 faults at acceptance, with no item consumed. -/
def Obligations.BuildFaultsOnAnyOtherLength : Prop :=
  ∀ (ord : BitOrder) (s : State), s.len ≠ 32 →
    ∃ t, exec (buildCommand ord) s = .next t ∧ t.status = 0x14#8 ∧
      t = { s with
        ph := .idle, done := false, err := true, errKind := .valInvalidLength, errOffset := 0, errByte := 0
        result := 0, acc := 0, pend := 0, idx := 0, outcnt := 0 }

/-- R101: BUILD with LEN = 32 latches ORD and goes to phase BUILD. -/
def Obligations.BuildStartsAtLengthThirtyTwo : Prop :=
  ∀ (ord : BitOrder) (s : State), s.len = 32 →
    exec (buildCommand ord) s = .next { s with
      ordLatch := ord, ph := .build, done := false, err := false, errKind := .none, errOffset := 0, errByte := 0
      acc := 0, pend := 0, idx := 0, outcnt := 0 }

/-- R102: a fill step stores the next item at STAGE[IDX] and advances IDX, with no check. -/
def Obligations.BuildFillStoresTheItem : Prop :=
  ∀ (s : State) (b : Byte) (rest : List Byte), s.ph = .build → s.idx < 32 → s.inp = b :: rest →
    ∃ t, coreStep s = .next t ∧
      (∀ i : Fin 32, t.stage.get i = if i.val = s.idx then b else s.stage.get i) ∧
      t = { s with stage := t.stage, inp := rest, idx := s.idx + 1 }

/-- R103 with R105, R106, R107: the check step reports the unprintable byte at the lowest position; else the byte at the
lowest position that repeats an earlier one; else commits the whole alphabet. -/
def Obligations.BuildCheckFaultsOrCommits : Prop :=
  ∀ s : State, s.ph = .build → s.idx = 32 →
    (∀ i : Fin 32, ¬ (32 ≤ (s.stage.get i).toNat ∧ (s.stage.get i).toNat ≤ 126) →
      (∀ j : Fin 32, j < i → 32 ≤ (s.stage.get j).toNat ∧ (s.stage.get j).toNat ≤ 126) →
      coreStep s = .next { s with
        ph := .idle, done := false, err := true, errKind := .valUnprintableByte, errByte := s.stage.get i
        errOffset := 0, result := 0 }) ∧
    ((∀ i : Fin 32, 32 ≤ (s.stage.get i).toNat ∧ (s.stage.get i).toNat ≤ 126) →
      (∀ j : Fin 32, (∃ i : Fin 32, i < j ∧ s.stage.get i = s.stage.get j) →
        (∀ k : Fin 32, k < j → ∀ i : Fin 32, i < k → s.stage.get i ≠ s.stage.get k) →
        coreStep s = .next { s with
          ph := .idle, done := false, err := true, errKind := .valDuplicatedByte, errByte := s.stage.get j
          errOffset := 0, result := 0 }) ∧
      ((∀ i j : Fin 32, s.stage.get i = s.stage.get j → i = j) →
        ∃ t, coreStep s = .next t ∧
          (∀ i : Fin 32, t.alpha.enc.get i = s.stage.get i) ∧
          (∀ i : Fin 32, decRead t.alpha (s.stage.get i) = BitVec.ofNat 8 i.val) ∧
          (∀ b : Byte, (∀ i : Fin 32, s.stage.get i ≠ b) → decRead t.alpha b = 0xFF#8) ∧
          t.alpha.order = s.ordLatch ∧
          t = { s with alpha := t.alpha, ph := .idle, done := true, result := 0 }))

/-- R100: a BUILD of 32 items, run to its end, is the function build(symbols, ord): at most 34 steps, the new alphabet
or the fault, and on a fault the old alphabet. -/
def Obligations.BuildRunIsTheFunction : Prop :=
  ∀ (s : State) (ord : BitOrder) (syms rest : List Byte), s.readyFor (buildCommand ord) syms rest →
    (∀ a, buildWhole syms ord = .ok a →
      ∃ t, s.runsTo 34 t ∧ s.completedAs t 0 [] rest ∧ t.alpha = a) ∧
    (∀ r, buildWhole syms ord = .error r →
      ∃ t, s.runsTo 34 t ∧ s.faultedAs t r (if syms.length = 32 then rest else syms ++ rest))

/-- R111: BUILD of a built-in string with its order leaves exactly the alphabet LOADB leaves. -/
def Obligations.BuildOfABuiltinEqualsLoadb : Prop :=
  ∀ (s : State) (k : Builtin) (rest : List Byte),
    s.readyFor (buildCommand (romOrder k)) (romSym k).entries rest →
    ∃ t u, s.runsTo 34 t ∧ exec (loadbCommand k) s = .next u ∧ t.alpha = u.alpha ∧ t.status = 0x02#8 ∧ u.status = 0x02#8

/-! ### ENCLEN and DECLEN -/

/-- R120, R121: ENCLEN gives 8*(LEN/5) plus the extra symbols of LEN % 5, when that fits LEN_W bits. -/
def Obligations.EnclenGivesTheExactLength : Prop :=
  encode .enclen = 0x03#8 ∧
  ∀ (s : State) (q r x : Nat), s.len = 5 * q + r → r < 5 → [0, 2, 4, 5, 7][r]? = some x → 8 * q + x ≤ 2 ^ s.lenW - 1 →
    ∃ t, exec .enclen s = .next t ∧ t.status = 0x02#8 ∧
      t = { s with
        ph := .idle, done := true, err := false, errKind := .none, errOffset := 0, errByte := 0, result := 8 * q + x
        acc := 0, pend := 0, idx := 0, outcnt := 0 }

/-- R122, R187: ENCLEN faults with LEN_OVERFLOW when LEN > (5*MAXLEN)/8; nothing is reduced modulo 2^LEN_W. -/
def Obligations.EnclenOverflowsAboveTheThreshold : Prop :=
  ∀ s : State, 5 * (2 ^ s.lenW - 1) / 8 < s.len →
    ∃ t, exec .enclen s = .next t ∧ t.status = 0x64#8 ∧
      t = { s with
        ph := .idle, done := false, err := true, errKind := .lenOverflow, errOffset := 0, errByte := 0, result := 0
        acc := 0, pend := 0, idx := 0, outcnt := 0 }

/-- R121, R122: encoded_length is 8*q + X[r] where that fits LEN_W bits and none where it does not, which is ceil(8*n/5)
up to the threshold and none above it; the thresholds of four widths. -/
def Obligations.EncodedLengthIsCeilUpToTheThreshold : Prop :=
  (∀ w q r x : Nat, r < 5 → [0, 2, 4, 5, 7][r]? = some x →
    encodedLength w (5 * q + r) = if 8 * q + x ≤ 2 ^ w - 1 then some (8 * q + x) else none) ∧
  (∀ w n : Nat, n ≤ 5 * (2 ^ w - 1) / 8 → encodedLength w n = some ((8 * n + 4) / 5)) ∧
  (∀ w n : Nat, 5 * (2 ^ w - 1) / 8 < n → encodedLength w n = none) ∧
  encodedLength 8 159 = some 255 ∧ encodedLength 8 160 = none ∧
  encodedLength 16 40959 = some 65535 ∧ encodedLength 16 40960 = none ∧
  encodedLength 32 2684354559 = some 4294967295 ∧ encodedLength 32 2684354560 = none ∧
  encodedLength 64 11529215046068469759 = some 18446744073709551615 ∧ encodedLength 64 11529215046068469760 = none

/-- R123, R124: DECLEN gives 5*(LEN/8) + LEN%8, which bounds the (5*LEN)/8 bytes of a DECODE, and never faults. -/
def Obligations.DeclenGivesTheBound : Prop :=
  encode .declen = 0x04#8 ∧ (∀ n : Nat, 5 * n / 8 ≤ 5 * (n / 8) + n % 8) ∧
  ∀ s : State, ∃ t, exec .declen s = .next t ∧ t.status = 0x02#8 ∧
    t = { s with
      ph := .idle, done := true, err := false, errKind := .none, errOffset := 0, errByte := 0
      result := 5 * (s.len / 8) + s.len % 8, acc := 0, pend := 0, idx := 0, outcnt := 0 }

/-- R125: the exact count of decoded bytes against the bound and against the encoded length. -/
def Obligations.ExactDecodedCountAndItsBounds : Prop :=
  ∀ n : Nat, 5 * n / 8 ≤ decodedLength n ∧ decodedLength n ≤ n ∧ (5 * n / 8 = decodedLength n ↔ n % 8 = 0) ∧
    5 * encodedSize n / 8 = n

/-! ### ENCODE -/

/-- R131: ENCODE whose length fits starts: phase ENC, the datapath at 0. -/
def Obligations.EncodeStartsWhenTheLengthFits : Prop :=
  encode .encode = 0x05#8 ∧
  ∀ s : State, s.len ≤ 5 * (2 ^ s.lenW - 1) / 8 →
    exec .encode s = .next { s with
      ph := .enc, done := false, err := false, errKind := .none, errOffset := 0, errByte := 0
      acc := 0, pend := 0, idx := 0, outcnt := 0 }

/-- R131, R187: ENCODE whose length does not fit faults at acceptance; no item consumed, nothing put out. -/
def Obligations.EncodeOverflowFaultsBeforeAnyInput : Prop :=
  ∀ s : State, 5 * (2 ^ s.lenW - 1) / 8 < s.len →
    ∃ t, exec .encode s = .next t ∧ t.status = 0x64#8 ∧
      t = { s with
        ph := .idle, done := false, err := true, errKind := .lenOverflow, errOffset := 0, errByte := 0, result := 0
        acc := 0, pend := 0, idx := 0, outcnt := 0 }

/-- R132: the byte step in Normal order. A is ACC with the byte below it, P the bits held; the P/5 top values go out in
order and the low P%5 bits stay. -/
def Obligations.EncodeByteStepNormal : Prop :=
  ∀ (s : State) (b : Byte) (rest : List Byte) (A P : Nat),
    s.ph = .enc → s.alpha.order = .normal → s.idx < s.len → s.inp = b :: rest → s.outReady = true →
    A = s.acc.toNat * 256 + b.toNat → P = s.pend.toNat + 8 →
    coreStep s = .next { s with
      acc := BitVec.ofNat 12 (A % 2 ^ (P % 5))
      pend := BitVec.ofNat 4 (P % 5)
      out := s.out ++ (List.range (P / 5)).map (fun j => encRead s.alpha (BitVec.ofNat 5 (A / 2 ^ (P - 5 * (j + 1)))))
      outcnt := s.outcnt + P / 5
      inp := rest
      idx := s.idx + 1 }

/-- R133: the byte step in Inverted order, ACC < 2^PEND (R26). The byte goes above the pending bits; the P/5 low values
go out in order and the rest stays. -/
def Obligations.EncodeByteStepInverted : Prop :=
  ∀ (s : State) (b : Byte) (rest : List Byte) (A P : Nat),
    s.ph = .enc → s.alpha.order = .inverted → s.idx < s.len → s.inp = b :: rest → s.outReady = true →
    s.acc.toNat < 2 ^ s.pend.toNat →
    A = s.acc.toNat + b.toNat * 2 ^ s.pend.toNat → P = s.pend.toNat + 8 →
    coreStep s = .next { s with
      acc := BitVec.ofNat 12 (A / 32 ^ (P / 5))
      pend := BitVec.ofNat 4 (P % 5)
      out := s.out ++ (List.range (P / 5)).map (fun j => encRead s.alpha (BitVec.ofNat 5 (A / 32 ^ j)))
      outcnt := s.outcnt + P / 5
      inp := rest
      idx := s.idx + 1 }

/-- R135: the finish step puts out one zero-filled symbol if bits are pending (left-over bits high in Normal order, low
in Inverted order), none otherwise, and completes with RESULT = OUTCNT. -/
def Obligations.EncodeFinishPutsTheShortSymbol : Prop :=
  ∀ s : State, s.ph = .enc → s.idx = s.len → s.pend.toNat ≤ 4 → s.acc.toNat < 2 ^ s.pend.toNat →
    (s.pend = 0 → coreStep s = .next { s with ph := .idle, done := true, result := s.outcnt }) ∧
    (s.pend ≠ 0 → s.outReady = true → coreStep s = .next { s with
      ph := .idle, done := true, result := s.outcnt + 1, outcnt := s.outcnt + 1
      out := s.out ++ [encRead s.alpha (BitVec.ofNat 5
        (if s.alpha.order = .normal then s.acc.toNat * 2 ^ (5 - s.pend.toNat) else s.acc.toNat))] })

/-- R137 d, R88: every item an ENCODE puts out is a symbol of the active alphabet, hence printable. -/
def Obligations.EncodePutsOutSymbolsOnly : Prop :=
  ∀ s t : State, s.Inv → s.ph = .enc → step s = .next t →
    ∃ put, t.out = s.out ++ put ∧ ∀ b ∈ put, (∃ i : Fin 32, s.alpha.enc.get i = b) ∧ 32 ≤ b.toNat ∧ b.toNat ≤ 126

/-- R79: the lanes of a full group in Normal order, put out by the machine. -/
def Obligations.EncoderLanesNormal : Prop :=
  ∀ (s : State) (b0 b1 b2 b3 b4 : Byte) (rest : List Byte),
    s.readyFor .encode [b0, b1, b2, b3, b4] rest → s.alpha.order = .normal → 8 ≤ s.lenW →
    ∃ t, s.runsTo 7 t ∧ t.status = 0x02#8 ∧ t.out = s.out ++
      [ b0.extractLsb' 3 5,
        b0.extractLsb' 0 3 ++ b1.extractLsb' 6 2,
        b1.extractLsb' 1 5,
        b1.extractLsb' 0 1 ++ b2.extractLsb' 4 4,
        b2.extractLsb' 0 4 ++ b3.extractLsb' 7 1,
        b3.extractLsb' 2 5,
        b3.extractLsb' 0 2 ++ b4.extractLsb' 5 3,
        b4.extractLsb' 0 5 ].map (encRead s.alpha)

/-- R80: the lanes of a full group in Inverted order, put out by the machine. -/
def Obligations.EncoderLanesInverted : Prop :=
  ∀ (s : State) (b0 b1 b2 b3 b4 : Byte) (rest : List Byte),
    s.readyFor .encode [b0, b1, b2, b3, b4] rest → s.alpha.order = .inverted → 8 ≤ s.lenW →
    ∃ t, s.runsTo 7 t ∧ t.status = 0x02#8 ∧ t.out = s.out ++
      [ b0.extractLsb' 0 5,
        b1.extractLsb' 0 2 ++ b0.extractLsb' 5 3,
        b1.extractLsb' 2 5,
        b2.extractLsb' 0 4 ++ b1.extractLsb' 7 1,
        b3.extractLsb' 0 1 ++ b2.extractLsb' 4 4,
        b3.extractLsb' 1 5,
        b4.extractLsb' 0 3 ++ b3.extractLsb' 6 2,
        b4.extractLsb' 3 5 ].map (encRead s.alpha)

/-- R136: an ENCODE run to its end has put out exactly encode(alpha, bytes) and RESULT is its length; LEN + 2 steps. -/
def Obligations.EncodeRunIsTheFunction : Prop :=
  ∀ (s : State) (bytes rest : List Byte), s.readyFor .encode bytes rest → bytes.length ≤ 5 * (2 ^ s.lenW - 1) / 8 →
    ∃ t, s.runsTo (bytes.length + 2) t ∧
      s.completedAs t ((8 * bytes.length + 4) / 5) (encodeWhole s.alpha bytes) rest ∧ t.alpha = s.alpha

/-! ### DECODE -/

/-- R151: DECODE starts with any LEN: phase DEC, the datapath at 0. -/
def Obligations.DecodeStartsWithAnyLength : Prop :=
  encode .decode = 0x06#8 ∧
  ∀ s : State,
    exec .decode s = .next { s with
      ph := .dec, done := false, err := false, errKind := .none, errOffset := 0, errByte := 0
      acc := 0, pend := 0, idx := 0, outcnt := 0 }

/-- R152, R185, R190: an item whose entry is 0xFF faults with its zero-based offset; the item is consumed, IDX is not
advanced, nothing is put out. -/
def Obligations.DecodeInvalidSymbolFaults : Prop :=
  ∀ (s : State) (c : Byte) (rest : List Byte),
    s.ph = .dec → s.idx < s.len → s.inp = c :: rest → decRead s.alpha c = 0xFF#8 →
    coreStep s = .next { s with
      inp := rest, ph := .idle, done := false, err := true, errKind := .decInvalidByte, errOffset := s.idx, errByte := c
      result := 0 }

/-- R153: the symbol step in Normal order, for an entry v below 32; a step that puts out nothing needs no sink. -/
def Obligations.DecodeSymbolStepNormal : Prop :=
  ∀ (s : State) (c : Byte) (rest : List Byte) (v A P : Nat),
    s.ph = .dec → s.alpha.order = .normal → s.idx < s.len → s.inp = c :: rest →
    (decRead s.alpha c).toNat = v → v < 32 → A = s.acc.toNat * 32 + v → P = s.pend.toNat + 5 →
    (s.outReady = true ∨ P < 8) →
    coreStep s = .next { s with
      acc := BitVec.ofNat 12 (if 8 ≤ P then A % 2 ^ (P - 8) else A)
      pend := BitVec.ofNat 4 (if 8 ≤ P then P - 8 else P)
      out := s.out ++ (if 8 ≤ P then [BitVec.ofNat 8 (A / 2 ^ (P - 8))] else [])
      outcnt := s.outcnt + (if 8 ≤ P then 1 else 0)
      inp := rest
      idx := s.idx + 1 }

/-- R154: the symbol step in Inverted order, for an entry v below 32, ACC < 2^PEND (R26); a step that puts out nothing needs no sink. -/
def Obligations.DecodeSymbolStepInverted : Prop :=
  ∀ (s : State) (c : Byte) (rest : List Byte) (v A P : Nat),
    s.ph = .dec → s.alpha.order = .inverted → s.idx < s.len → s.inp = c :: rest →
    s.acc.toNat < 2 ^ s.pend.toNat →
    (decRead s.alpha c).toNat = v → v < 32 → A = s.acc.toNat + v * 2 ^ s.pend.toNat → P = s.pend.toNat + 5 →
    (s.outReady = true ∨ P < 8) →
    coreStep s = .next { s with
      acc := BitVec.ofNat 12 (if 8 ≤ P then A / 256 else A)
      pend := BitVec.ofNat 4 (if 8 ≤ P then P - 8 else P)
      out := s.out ++ (if 8 ≤ P then [BitVec.ofNat 8 A] else [])
      outcnt := s.outcnt + (if 8 ≤ P then 1 else 0)
      inp := rest
      idx := s.idx + 1 }

/-- R156: the finish step completes with RESULT = OUTCNT, whatever bits are left over. -/
def Obligations.DecodeFinishDropsTheLeftOverBits : Prop :=
  ∀ s : State, s.ph = .dec → s.idx = s.len →
    coreStep s = .next { s with ph := .idle, done := true, result := s.outcnt }

/-- R84: the lanes of eight values to five bytes, in both orders, put out by the machine. -/
def Obligations.DecoderLanes : Prop :=
  ∀ (s : State) (v0 v1 v2 v3 v4 v5 v6 v7 : Val5) (rest : List Byte), s.alpha.Wf →
    s.readyFor .decode ([v0, v1, v2, v3, v4, v5, v6, v7].map (encRead s.alpha)) rest →
    ∃ t, s.runsTo 10 t ∧ t.status = 0x02#8 ∧
      (s.alpha.order = .normal → t.out = s.out ++
        [ v0 ++ v1.extractLsb' 2 3,
          v1.extractLsb' 0 2 ++ v2 ++ v3.extractLsb' 4 1,
          v3.extractLsb' 0 4 ++ v4.extractLsb' 1 4,
          v4.extractLsb' 0 1 ++ v5 ++ v6.extractLsb' 3 2,
          v6.extractLsb' 0 3 ++ v7 ]) ∧
      (s.alpha.order = .inverted → t.out = s.out ++
        [ v1.extractLsb' 0 3 ++ v0,
          v3.extractLsb' 0 1 ++ v2 ++ v1.extractLsb' 3 2,
          v4.extractLsb' 0 4 ++ v3.extractLsb' 1 4,
          v6.extractLsb' 0 2 ++ v5 ++ v4.extractLsb' 4 1,
          v7 ++ v6.extractLsb' 2 3 ])

/-- R158, R150: a DECODE of symbols of the alphabet, run to its end, has put out exactly decode(alpha, syms); LEN + 2
steps, RESULT = (5*LEN)/8. -/
def Obligations.DecodeRunIsTheFunction : Prop :=
  ∀ (s : State) (syms rest bytes : List Byte), s.alpha.Wf → s.readyFor .decode syms rest →
    decodeWhole s.alpha syms = .ok bytes →
    ∃ t, s.runsTo (syms.length + 2) t ∧ s.completedAs t (5 * syms.length / 8) bytes rest ∧ t.alpha = s.alpha

/-- R158, R157, R189 c: a DECODE with an item that is no symbol faults at the least such offset i, in i + 2 steps; the
items behind it are not consumed. What was put out before is void and not described. -/
def Obligations.DecodeRunFaultsAtTheFirstInvalidItem : Prop :=
  ∀ (s : State) (syms rest : List Byte) (i : Nat) (c : Byte), s.alpha.Wf → s.readyFor .decode syms rest →
    syms[i]? = some c → decRead s.alpha c = 0xFF#8 →
    (∀ (j : Nat) (d : Byte), j < i → syms[j]? = some d → decRead s.alpha d ≠ 0xFF#8) →
    decodeWhole s.alpha syms = .error (.decInvalidByte i c) ∧
    ∃ t, s.runsTo (i + 2) t ∧ s.faultedAs t (.decInvalidByte i c) (syms.drop (i + 1) ++ rest)

/-- R159: the round trip on the machine. ENCODE of any bytes runs to its end; when the host then gives the symbols put
out back, with LEN their number, DECODE runs to its end and puts out the bytes. -/
def Obligations.DecodeOfEncodeRestoresTheBytes : Prop :=
  ∀ (s : State) (bytes rest : List Byte), s.alpha.Wf → s.readyFor .encode bytes rest →
    bytes.length ≤ 5 * (2 ^ s.lenW - 1) / 8 →
    ∃ t, s.runsTo (bytes.length + 2) t ∧ t.status = 0x02#8 ∧ t.result = (t.out.drop s.out.length).length ∧
      ∃ u, State.runsTo
          { t with inp := t.out.drop s.out.length, host := [.write 2 t.result, .write 0 (encode .decode).toNat] }
          (t.result + 3) u ∧
        u.status = 0x02#8 ∧ u.result = bytes.length ∧ u.out = t.out ++ bytes

/-! ### Sequencing -/

/-- Rests on R177: with no item offered a consuming phase holds, and a step whose items the sink does not take is a hold;
under the invariants there is no other way for a running CORE to wait. An idle CORE to which no event comes stays as it
is. The model's choices: that a hold is a step that changes nothing (log 2), and when out_valid is 1 (log 8); clauses 1, 3
and 4 rest on them. -/
def Obligations.HoldsAreLiftedOnlyByTheHost : Prop :=
  ∀ s : State,
    (s.ph = .idle → coreStep s = .next s) ∧
    (s.ph ≠ .idle → s.Inv → s.idx < s.len → s.inp = [] → coreStep s = .next s) ∧
    (s.outValid = true → s.outReady = false → coreStep s = .next s) ∧
    (s.ph ≠ .idle → s.Inv → coreStep s = .next s →
      (s.idx < s.len ∧ s.inp = []) ∨ (s.outValid = true ∧ s.outReady = false))

/-- R176: PH changes only as its table says. -/
def Obligations.PhaseChangesAsTheTableSays : Prop :=
  ∀ s t : State, step s = .next t → t.ph ≠ s.ph →
    ((s.rst = true ∨ ∃ rest, s.nextEvent (.rst true) rest) ∧ t.ph = .idle ∧ t.status = 0x00#8) ∨
    (s.ph = .idle ∧ ∃ i data rest, s.nextEvent (.write 0 data) rest ∧ decode (BitVec.ofNat 8 data) = .command i ∧
      ((t.ph = .build ∧ (i = .buildNormal ∨ i = .buildInverted) ∧ s.len = 32) ∨
       (t.ph = .enc ∧ i = .encode ∧ encodedLength s.lenW s.len ≠ none) ∨
       (t.ph = .dec ∧ i = .decode))) ∨
    (s.ph = .build ∧ t.ph = .idle ∧ s.idx = 32 ∧ (t.done = true ∨ t.err = true)) ∨
    (s.ph = .enc ∧ t.ph = .idle ∧ s.idx = s.len ∧ t.done = true) ∨
    (s.ph = .dec ∧ t.ph = .idle ∧ s.idx = s.len ∧ t.done = true) ∨
    (s.ph = .dec ∧ t.ph = .idle ∧ s.idx < s.len ∧ t.err = true ∧ ∃ c rest, s.inp = c :: rest ∧ decRead s.alpha c = 0xFF#8)

/-- R53, R54: a step of the CORE takes at most the first item offered, and appends at most two items behind what is
already out; nothing put out is ever changed. -/
def Obligations.StreamsAreReadAndWrittenInOrder : Prop :=
  (∀ s t : State, s.Inv → coreStep s = .next t →
    (t.inp = s.inp ∨ ∃ b, s.inp = b :: t.inp) ∧ t.idx ≤ s.idx + 1) ∧
  (∀ s t : State, s.Inv → step s = .next t → s.out <+: t.out ∧ t.out.length ≤ s.out.length + 2)

/-- R176, R221: an operation whose host supplies its items and takes its output ends: from any of its states at most
LEN - IDX + 1 steps lead to BUSY = 0 with exactly one of DONE and ERR. -/
def Obligations.EverySuppliedOperationEnds : Prop :=
  ∀ s : State, s.Inv → s.coreRuns → s.busy = true → s.outReady = true → s.len - s.idx ≤ s.inp.length →
    ∃ k t, k ≤ s.len - s.idx + 1 ∧ s.runsTo k t ∧ t.busy = false ∧ t.done ≠ t.err

/-- R20, R27, R173: what an operation does depends on the alphabet, LEN and the host alone, not on what ran before it:
two idle CORES that agree on those and differ in anything else show the same from the acceptance on. -/
def Obligations.OutcomeDependsOnAlphabetLenAndHostOnly : Prop :=
  ∀ (s1 s2 : State) (w : Byte) (events : List HostEvent) (k : Nat) (t1 : State),
    s1.ph = .idle → s2.ph = .idle → s1.nextEvent (.write 0 w.toNat) events → s2.nextEvent (.write 0 w.toNat) events →
    s1.alpha = s2.alpha → s1.len = s2.len → s1.lenW = s2.lenW → s1.inp = s2.inp → s1.out = s2.out →
    s1.outReady = s2.outReady → s1.runsTo (k + 1) t1 →
    ∃ t2, s2.runsTo (k + 1) t2 ∧ t1.ph = t2.ph ∧ t1.status = t2.status ∧ t1.errOffset = t2.errOffset ∧
      t1.errByte = t2.errByte ∧ t1.alpha = t2.alpha ∧ t1.len = t2.len ∧ t1.inp = t2.inp ∧ t1.out = t2.out ∧
      t1.host = t2.host ∧ (t1.busy = false → t1.result = t2.result)

end
end

