-- ==== Sys2Proof/Laws/State.lean ====
section
/-! SUPPORT. One lemma per field per shared update of State, true by rfl. -/

namespace Sys2Proof.Machine

/-! ### clearStatus: STATUS cleared (R173) -/

@[simp] theorem State.clearStatus_alpha (s : State) : (s.clearStatus).alpha = s.alpha := rfl
@[simp] theorem State.clearStatus_acc (s : State) : (s.clearStatus).acc = s.acc := rfl
@[simp] theorem State.clearStatus_pend (s : State) : (s.clearStatus).pend = s.pend := rfl
@[simp] theorem State.clearStatus_idx (s : State) : (s.clearStatus).idx = s.idx := rfl
@[simp] theorem State.clearStatus_outcnt (s : State) : (s.clearStatus).outcnt = s.outcnt := rfl
@[simp] theorem State.clearStatus_stage (s : State) : (s.clearStatus).stage = s.stage := rfl
@[simp] theorem State.clearStatus_ordLatch (s : State) : (s.clearStatus).ordLatch = s.ordLatch := rfl
@[simp] theorem State.clearStatus_ph (s : State) : (s.clearStatus).ph = s.ph := rfl
@[simp] theorem State.clearStatus_done (s : State) : (s.clearStatus).done = false := rfl
@[simp] theorem State.clearStatus_err (s : State) : (s.clearStatus).err = false := rfl
@[simp] theorem State.clearStatus_errKind (s : State) : (s.clearStatus).errKind = .none := rfl
@[simp] theorem State.clearStatus_len (s : State) : (s.clearStatus).len = s.len := rfl
@[simp] theorem State.clearStatus_result (s : State) : (s.clearStatus).result = s.result := rfl
@[simp] theorem State.clearStatus_errOffset (s : State) : (s.clearStatus).errOffset = s.errOffset := rfl
@[simp] theorem State.clearStatus_errByte (s : State) : (s.clearStatus).errByte = s.errByte := rfl
@[simp] theorem State.clearStatus_lenW (s : State) : (s.clearStatus).lenW = s.lenW := rfl
@[simp] theorem State.clearStatus_inp (s : State) : (s.clearStatus).inp = s.inp := rfl
@[simp] theorem State.clearStatus_out (s : State) : (s.clearStatus).out = s.out := rfl
@[simp] theorem State.clearStatus_outReady (s : State) : (s.clearStatus).outReady = s.outReady := rfl
@[simp] theorem State.clearStatus_rst (s : State) : (s.clearStatus).rst = s.rst := rfl
@[simp] theorem State.clearStatus_host (s : State) : (s.clearStatus).host = s.host := rfl
@[simp] theorem State.clearStatus_busy (s : State) : (s.clearStatus).busy = s.busy := rfl

/-! ### setDone: DONE set (R174) -/

@[simp] theorem State.setDone_alpha (s : State) : (s.setDone).alpha = s.alpha := rfl
@[simp] theorem State.setDone_acc (s : State) : (s.setDone).acc = s.acc := rfl
@[simp] theorem State.setDone_pend (s : State) : (s.setDone).pend = s.pend := rfl
@[simp] theorem State.setDone_idx (s : State) : (s.setDone).idx = s.idx := rfl
@[simp] theorem State.setDone_outcnt (s : State) : (s.setDone).outcnt = s.outcnt := rfl
@[simp] theorem State.setDone_stage (s : State) : (s.setDone).stage = s.stage := rfl
@[simp] theorem State.setDone_ordLatch (s : State) : (s.setDone).ordLatch = s.ordLatch := rfl
@[simp] theorem State.setDone_ph (s : State) : (s.setDone).ph = s.ph := rfl
@[simp] theorem State.setDone_done (s : State) : (s.setDone).done = true := rfl
@[simp] theorem State.setDone_err (s : State) : (s.setDone).err = s.err := rfl
@[simp] theorem State.setDone_errKind (s : State) : (s.setDone).errKind = s.errKind := rfl
@[simp] theorem State.setDone_len (s : State) : (s.setDone).len = s.len := rfl
@[simp] theorem State.setDone_result (s : State) : (s.setDone).result = s.result := rfl
@[simp] theorem State.setDone_errOffset (s : State) : (s.setDone).errOffset = s.errOffset := rfl
@[simp] theorem State.setDone_errByte (s : State) : (s.setDone).errByte = s.errByte := rfl
@[simp] theorem State.setDone_lenW (s : State) : (s.setDone).lenW = s.lenW := rfl
@[simp] theorem State.setDone_inp (s : State) : (s.setDone).inp = s.inp := rfl
@[simp] theorem State.setDone_out (s : State) : (s.setDone).out = s.out := rfl
@[simp] theorem State.setDone_outReady (s : State) : (s.setDone).outReady = s.outReady := rfl
@[simp] theorem State.setDone_rst (s : State) : (s.setDone).rst = s.rst := rfl
@[simp] theorem State.setDone_host (s : State) : (s.setDone).host = s.host := rfl
@[simp] theorem State.setDone_busy (s : State) : (s.setDone).busy = s.busy := rfl

/-! ### setErr: ERR set (R190) -/

@[simp] theorem State.setErr_alpha (s : State) (k : ErrKind) : (s.setErr k).alpha = s.alpha := rfl
@[simp] theorem State.setErr_acc (s : State) (k : ErrKind) : (s.setErr k).acc = s.acc := rfl
@[simp] theorem State.setErr_pend (s : State) (k : ErrKind) : (s.setErr k).pend = s.pend := rfl
@[simp] theorem State.setErr_idx (s : State) (k : ErrKind) : (s.setErr k).idx = s.idx := rfl
@[simp] theorem State.setErr_outcnt (s : State) (k : ErrKind) : (s.setErr k).outcnt = s.outcnt := rfl
@[simp] theorem State.setErr_stage (s : State) (k : ErrKind) : (s.setErr k).stage = s.stage := rfl
@[simp] theorem State.setErr_ordLatch (s : State) (k : ErrKind) : (s.setErr k).ordLatch = s.ordLatch := rfl
@[simp] theorem State.setErr_ph (s : State) (k : ErrKind) : (s.setErr k).ph = s.ph := rfl
@[simp] theorem State.setErr_done (s : State) (k : ErrKind) : (s.setErr k).done = false := rfl
@[simp] theorem State.setErr_err (s : State) (k : ErrKind) : (s.setErr k).err = true := rfl
@[simp] theorem State.setErr_errKind (s : State) (k : ErrKind) : (s.setErr k).errKind = k := rfl
@[simp] theorem State.setErr_len (s : State) (k : ErrKind) : (s.setErr k).len = s.len := rfl
@[simp] theorem State.setErr_result (s : State) (k : ErrKind) : (s.setErr k).result = s.result := rfl
@[simp] theorem State.setErr_errOffset (s : State) (k : ErrKind) : (s.setErr k).errOffset = s.errOffset := rfl
@[simp] theorem State.setErr_errByte (s : State) (k : ErrKind) : (s.setErr k).errByte = s.errByte := rfl
@[simp] theorem State.setErr_lenW (s : State) (k : ErrKind) : (s.setErr k).lenW = s.lenW := rfl
@[simp] theorem State.setErr_inp (s : State) (k : ErrKind) : (s.setErr k).inp = s.inp := rfl
@[simp] theorem State.setErr_out (s : State) (k : ErrKind) : (s.setErr k).out = s.out := rfl
@[simp] theorem State.setErr_outReady (s : State) (k : ErrKind) : (s.setErr k).outReady = s.outReady := rfl
@[simp] theorem State.setErr_rst (s : State) (k : ErrKind) : (s.setErr k).rst = s.rst := rfl
@[simp] theorem State.setErr_host (s : State) (k : ErrKind) : (s.setErr k).host = s.host := rfl
@[simp] theorem State.setErr_busy (s : State) (k : ErrKind) : (s.setErr k).busy = s.busy := rfl

/-! ### prologue: the prologue (R173) -/

@[simp] theorem State.prologue_alpha (s : State) : (s.prologue).alpha = s.alpha := rfl
@[simp] theorem State.prologue_acc (s : State) : (s.prologue).acc = 0 := rfl
@[simp] theorem State.prologue_pend (s : State) : (s.prologue).pend = 0 := rfl
@[simp] theorem State.prologue_idx (s : State) : (s.prologue).idx = 0 := rfl
@[simp] theorem State.prologue_outcnt (s : State) : (s.prologue).outcnt = 0 := rfl
@[simp] theorem State.prologue_stage (s : State) : (s.prologue).stage = s.stage := rfl
@[simp] theorem State.prologue_ordLatch (s : State) : (s.prologue).ordLatch = s.ordLatch := rfl
@[simp] theorem State.prologue_ph (s : State) : (s.prologue).ph = s.ph := rfl
@[simp] theorem State.prologue_done (s : State) : (s.prologue).done = false := rfl
@[simp] theorem State.prologue_err (s : State) : (s.prologue).err = false := rfl
@[simp] theorem State.prologue_errKind (s : State) : (s.prologue).errKind = .none := rfl
@[simp] theorem State.prologue_len (s : State) : (s.prologue).len = s.len := rfl
@[simp] theorem State.prologue_result (s : State) : (s.prologue).result = s.result := rfl
@[simp] theorem State.prologue_errOffset (s : State) : (s.prologue).errOffset = 0 := rfl
@[simp] theorem State.prologue_errByte (s : State) : (s.prologue).errByte = 0 := rfl
@[simp] theorem State.prologue_lenW (s : State) : (s.prologue).lenW = s.lenW := rfl
@[simp] theorem State.prologue_inp (s : State) : (s.prologue).inp = s.inp := rfl
@[simp] theorem State.prologue_out (s : State) : (s.prologue).out = s.out := rfl
@[simp] theorem State.prologue_outReady (s : State) : (s.prologue).outReady = s.outReady := rfl
@[simp] theorem State.prologue_rst (s : State) : (s.prologue).rst = s.rst := rfl
@[simp] theorem State.prologue_host (s : State) : (s.prologue).host = s.host := rfl
@[simp] theorem State.prologue_busy (s : State) : (s.prologue).busy = s.busy := rfl

/-! ### complete: done() (R174) -/

@[simp] theorem State.complete_alpha (s : State) (m : Nat) : (s.complete m).alpha = s.alpha := rfl
@[simp] theorem State.complete_acc (s : State) (m : Nat) : (s.complete m).acc = s.acc := rfl
@[simp] theorem State.complete_pend (s : State) (m : Nat) : (s.complete m).pend = s.pend := rfl
@[simp] theorem State.complete_idx (s : State) (m : Nat) : (s.complete m).idx = s.idx := rfl
@[simp] theorem State.complete_outcnt (s : State) (m : Nat) : (s.complete m).outcnt = s.outcnt := rfl
@[simp] theorem State.complete_stage (s : State) (m : Nat) : (s.complete m).stage = s.stage := rfl
@[simp] theorem State.complete_ordLatch (s : State) (m : Nat) : (s.complete m).ordLatch = s.ordLatch := rfl
@[simp] theorem State.complete_ph (s : State) (m : Nat) : (s.complete m).ph = .idle := rfl
@[simp] theorem State.complete_done (s : State) (m : Nat) : (s.complete m).done = true := rfl
@[simp] theorem State.complete_err (s : State) (m : Nat) : (s.complete m).err = s.err := rfl
@[simp] theorem State.complete_errKind (s : State) (m : Nat) : (s.complete m).errKind = s.errKind := rfl
@[simp] theorem State.complete_len (s : State) (m : Nat) : (s.complete m).len = s.len := rfl
@[simp] theorem State.complete_result (s : State) (m : Nat) : (s.complete m).result = m := rfl
@[simp] theorem State.complete_errOffset (s : State) (m : Nat) : (s.complete m).errOffset = s.errOffset := rfl
@[simp] theorem State.complete_errByte (s : State) (m : Nat) : (s.complete m).errByte = s.errByte := rfl
@[simp] theorem State.complete_lenW (s : State) (m : Nat) : (s.complete m).lenW = s.lenW := rfl
@[simp] theorem State.complete_inp (s : State) (m : Nat) : (s.complete m).inp = s.inp := rfl
@[simp] theorem State.complete_out (s : State) (m : Nat) : (s.complete m).out = s.out := rfl
@[simp] theorem State.complete_outReady (s : State) (m : Nat) : (s.complete m).outReady = s.outReady := rfl
@[simp] theorem State.complete_rst (s : State) (m : Nat) : (s.complete m).rst = s.rst := rfl
@[simp] theorem State.complete_host (s : State) (m : Nat) : (s.complete m).host = s.host := rfl
@[simp] theorem State.complete_busy (s : State) (m : Nat) : (s.complete m).busy = false := rfl

/-! ### raise: taking a fault (R190) -/

@[simp] theorem State.raise_alpha (s : State) (r : FaultReport) : (s.raise r).alpha = s.alpha := rfl
@[simp] theorem State.raise_acc (s : State) (r : FaultReport) : (s.raise r).acc = s.acc := rfl
@[simp] theorem State.raise_pend (s : State) (r : FaultReport) : (s.raise r).pend = s.pend := rfl
@[simp] theorem State.raise_idx (s : State) (r : FaultReport) : (s.raise r).idx = s.idx := rfl
@[simp] theorem State.raise_outcnt (s : State) (r : FaultReport) : (s.raise r).outcnt = s.outcnt := rfl
@[simp] theorem State.raise_stage (s : State) (r : FaultReport) : (s.raise r).stage = s.stage := rfl
@[simp] theorem State.raise_ordLatch (s : State) (r : FaultReport) : (s.raise r).ordLatch = s.ordLatch := rfl
@[simp] theorem State.raise_ph (s : State) (r : FaultReport) : (s.raise r).ph = .idle := rfl
@[simp] theorem State.raise_done (s : State) (r : FaultReport) : (s.raise r).done = false := rfl
@[simp] theorem State.raise_err (s : State) (r : FaultReport) : (s.raise r).err = true := rfl
@[simp] theorem State.raise_errKind (s : State) (r : FaultReport) : (s.raise r).errKind = r.kind := rfl
@[simp] theorem State.raise_len (s : State) (r : FaultReport) : (s.raise r).len = s.len := rfl
@[simp] theorem State.raise_result (s : State) (r : FaultReport) : (s.raise r).result = 0 := rfl
@[simp] theorem State.raise_errOffset (s : State) (r : FaultReport) : (s.raise r).errOffset = r.offset := rfl
@[simp] theorem State.raise_errByte (s : State) (r : FaultReport) : (s.raise r).errByte = r.byte := rfl
@[simp] theorem State.raise_lenW (s : State) (r : FaultReport) : (s.raise r).lenW = s.lenW := rfl
@[simp] theorem State.raise_inp (s : State) (r : FaultReport) : (s.raise r).inp = s.inp := rfl
@[simp] theorem State.raise_out (s : State) (r : FaultReport) : (s.raise r).out = s.out := rfl
@[simp] theorem State.raise_outReady (s : State) (r : FaultReport) : (s.raise r).outReady = s.outReady := rfl
@[simp] theorem State.raise_rst (s : State) (r : FaultReport) : (s.raise r).rst = s.rst := rfl
@[simp] theorem State.raise_host (s : State) (r : FaultReport) : (s.raise r).host = s.host := rfl
@[simp] theorem State.raise_busy (s : State) (r : FaultReport) : (s.raise r).busy = false := rfl

/-! ### consume: InGet and the advance of IDX (R53) -/

@[simp] theorem State.consume_alpha (s : State) (rest : List Byte) : (s.consume rest).alpha = s.alpha := rfl
@[simp] theorem State.consume_acc (s : State) (rest : List Byte) : (s.consume rest).acc = s.acc := rfl
@[simp] theorem State.consume_pend (s : State) (rest : List Byte) : (s.consume rest).pend = s.pend := rfl
@[simp] theorem State.consume_idx (s : State) (rest : List Byte) : (s.consume rest).idx = s.idx + 1 := rfl
@[simp] theorem State.consume_outcnt (s : State) (rest : List Byte) : (s.consume rest).outcnt = s.outcnt := rfl
@[simp] theorem State.consume_stage (s : State) (rest : List Byte) : (s.consume rest).stage = s.stage := rfl
@[simp] theorem State.consume_ordLatch (s : State) (rest : List Byte) : (s.consume rest).ordLatch = s.ordLatch := rfl
@[simp] theorem State.consume_ph (s : State) (rest : List Byte) : (s.consume rest).ph = s.ph := rfl
@[simp] theorem State.consume_done (s : State) (rest : List Byte) : (s.consume rest).done = s.done := rfl
@[simp] theorem State.consume_err (s : State) (rest : List Byte) : (s.consume rest).err = s.err := rfl
@[simp] theorem State.consume_errKind (s : State) (rest : List Byte) : (s.consume rest).errKind = s.errKind := rfl
@[simp] theorem State.consume_len (s : State) (rest : List Byte) : (s.consume rest).len = s.len := rfl
@[simp] theorem State.consume_result (s : State) (rest : List Byte) : (s.consume rest).result = s.result := rfl
@[simp] theorem State.consume_errOffset (s : State) (rest : List Byte) : (s.consume rest).errOffset = s.errOffset := rfl
@[simp] theorem State.consume_errByte (s : State) (rest : List Byte) : (s.consume rest).errByte = s.errByte := rfl
@[simp] theorem State.consume_lenW (s : State) (rest : List Byte) : (s.consume rest).lenW = s.lenW := rfl
@[simp] theorem State.consume_inp (s : State) (rest : List Byte) : (s.consume rest).inp = rest := rfl
@[simp] theorem State.consume_out (s : State) (rest : List Byte) : (s.consume rest).out = s.out := rfl
@[simp] theorem State.consume_outReady (s : State) (rest : List Byte) : (s.consume rest).outReady = s.outReady := rfl
@[simp] theorem State.consume_rst (s : State) (rest : List Byte) : (s.consume rest).rst = s.rst := rfl
@[simp] theorem State.consume_host (s : State) (rest : List Byte) : (s.consume rest).host = s.host := rfl
@[simp] theorem State.consume_busy (s : State) (rest : List Byte) : (s.consume rest).busy = s.busy := rfl

/-! ### putOut: OutPut (R54) -/

@[simp] theorem State.putOut_alpha (s : State) (items : List Byte) : (s.putOut items).alpha = s.alpha := rfl
@[simp] theorem State.putOut_acc (s : State) (items : List Byte) : (s.putOut items).acc = s.acc := rfl
@[simp] theorem State.putOut_pend (s : State) (items : List Byte) : (s.putOut items).pend = s.pend := rfl
@[simp] theorem State.putOut_idx (s : State) (items : List Byte) : (s.putOut items).idx = s.idx := rfl
@[simp] theorem State.putOut_outcnt (s : State) (items : List Byte) : (s.putOut items).outcnt = s.outcnt + items.length := rfl
@[simp] theorem State.putOut_stage (s : State) (items : List Byte) : (s.putOut items).stage = s.stage := rfl
@[simp] theorem State.putOut_ordLatch (s : State) (items : List Byte) : (s.putOut items).ordLatch = s.ordLatch := rfl
@[simp] theorem State.putOut_ph (s : State) (items : List Byte) : (s.putOut items).ph = s.ph := rfl
@[simp] theorem State.putOut_done (s : State) (items : List Byte) : (s.putOut items).done = s.done := rfl
@[simp] theorem State.putOut_err (s : State) (items : List Byte) : (s.putOut items).err = s.err := rfl
@[simp] theorem State.putOut_errKind (s : State) (items : List Byte) : (s.putOut items).errKind = s.errKind := rfl
@[simp] theorem State.putOut_len (s : State) (items : List Byte) : (s.putOut items).len = s.len := rfl
@[simp] theorem State.putOut_result (s : State) (items : List Byte) : (s.putOut items).result = s.result := rfl
@[simp] theorem State.putOut_errOffset (s : State) (items : List Byte) : (s.putOut items).errOffset = s.errOffset := rfl
@[simp] theorem State.putOut_errByte (s : State) (items : List Byte) : (s.putOut items).errByte = s.errByte := rfl
@[simp] theorem State.putOut_lenW (s : State) (items : List Byte) : (s.putOut items).lenW = s.lenW := rfl
@[simp] theorem State.putOut_inp (s : State) (items : List Byte) : (s.putOut items).inp = s.inp := rfl
@[simp] theorem State.putOut_out (s : State) (items : List Byte) : (s.putOut items).out = s.out ++ items := rfl
@[simp] theorem State.putOut_outReady (s : State) (items : List Byte) : (s.putOut items).outReady = s.outReady := rfl
@[simp] theorem State.putOut_rst (s : State) (items : List Byte) : (s.putOut items).rst = s.rst := rfl
@[simp] theorem State.putOut_host (s : State) (items : List Byte) : (s.putOut items).host = s.host := rfl
@[simp] theorem State.putOut_busy (s : State) (items : List Byte) : (s.putOut items).busy = s.busy := rfl

/-! ### resetCore: the reset step (R210) -/

@[simp] theorem State.resetCore_alpha (s : State) : (s.resetCore).alpha = rom .zbase32 := rfl
@[simp] theorem State.resetCore_acc (s : State) : (s.resetCore).acc = 0 := rfl
@[simp] theorem State.resetCore_pend (s : State) : (s.resetCore).pend = 0 := rfl
@[simp] theorem State.resetCore_idx (s : State) : (s.resetCore).idx = 0 := rfl
@[simp] theorem State.resetCore_outcnt (s : State) : (s.resetCore).outcnt = 0 := rfl
@[simp] theorem State.resetCore_stage (s : State) : (s.resetCore).stage = Table.const 32 0 := rfl
@[simp] theorem State.resetCore_ordLatch (s : State) : (s.resetCore).ordLatch = .normal := rfl
@[simp] theorem State.resetCore_ph (s : State) : (s.resetCore).ph = .idle := rfl
@[simp] theorem State.resetCore_done (s : State) : (s.resetCore).done = false := rfl
@[simp] theorem State.resetCore_err (s : State) : (s.resetCore).err = false := rfl
@[simp] theorem State.resetCore_errKind (s : State) : (s.resetCore).errKind = .none := rfl
@[simp] theorem State.resetCore_len (s : State) : (s.resetCore).len = 0 := rfl
@[simp] theorem State.resetCore_result (s : State) : (s.resetCore).result = 0 := rfl
@[simp] theorem State.resetCore_errOffset (s : State) : (s.resetCore).errOffset = 0 := rfl
@[simp] theorem State.resetCore_errByte (s : State) : (s.resetCore).errByte = 0 := rfl
@[simp] theorem State.resetCore_lenW (s : State) : (s.resetCore).lenW = s.lenW := rfl
@[simp] theorem State.resetCore_inp (s : State) : (s.resetCore).inp = s.inp := rfl
@[simp] theorem State.resetCore_out (s : State) : (s.resetCore).out = s.out := rfl
@[simp] theorem State.resetCore_outReady (s : State) : (s.resetCore).outReady = s.outReady := rfl
@[simp] theorem State.resetCore_rst (s : State) : (s.resetCore).rst = s.rst := rfl
@[simp] theorem State.resetCore_host (s : State) : (s.resetCore).host = s.host := rfl
@[simp] theorem State.resetCore_busy (s : State) : (s.resetCore).busy = false := rfl

end Sys2Proof.Machine
end

