-- ==== Sys2Proof/Laws/Tables.lean ====
section
/-! SUPPORT. The laws of tables and of the decode table made from 32 distinct symbols (40_alphabet.md R108), and that every built-in alphabet meets R24. -/

namespace Sys2Proof.Machine

@[simp] theorem Table.length_entries {n : Nat} (t : Table n) : t.entries.length = n := t.size_eq

theorem Table.ext_entries {n : Nat} {t u : Table n} (h : t.entries = u.entries) : t = u := by
  cases t; cases u; simp_all

theorem Table.get_set_same {n : Nat} (t : Table n) (i : Fin n) (b : Byte) : (t.set i.val b).get i = b := by
  simp [Table.get, Table.set]

theorem Table.get_set_other {n : Nat} (t : Table n) (i : Nat) (j : Fin n) (b : Byte) (h : i ≠ j.val) :
    (t.set i b).get j = t.get j := by
  simp [Table.get, Table.set, h]

@[simp] theorem Table.get_const (n : Nat) (b : Byte) (i : Fin n) : (Table.const n b).get i = b := by
  simp [Table.get, Table.const]

@[simp] theorem Table.get_tabulate (n : Nat) (f : Nat → Byte) (i : Fin n) : (Table.tabulate n f).get i = f i.val := by
  simp [Table.get, Table.tabulate]

/-- Two tables with equal entries are equal. -/
theorem Table.ext_get {n : Nat} {t u : Table n} (h : ∀ i, t.get i = u.get i) : t = u := by
  apply Table.ext_entries
  apply List.ext_getElem (by simp)
  intro k hk _
  simpa [Table.get] using h ⟨k, by simpa using hk⟩

theorem Table.get_mem {n : Nat} (t : Table n) (i : Fin n) : t.get i ∈ t.entries := List.getElem_mem _

theorem Table.mem_entries_iff {n : Nat} (t : Table n) (b : Byte) : b ∈ t.entries ↔ ∃ i, t.get i = b := by
  constructor
  · intro h
    obtain ⟨k, hk, rfl⟩ := List.getElem_of_mem h
    exact ⟨⟨k, by simpa using hk⟩, rfl⟩
  · rintro ⟨i, rfl⟩
    exact t.get_mem i

/-- A read of the decode table made of sym. -/
@[simp] theorem decRead_alphabetOf (sym : Table 32) (o : BitOrder) (b : Byte) :
    decRead (alphabetOf sym o) b = inverseEntry sym b := by
  simp [decRead, alphabetOf, inverse, BitVec.ofNat_toNat]

@[simp] theorem alphabetOf_enc (sym : Table 32) (o : BitOrder) : (alphabetOf sym o).enc = sym := rfl
@[simp] theorem alphabetOf_order (sym : Table 32) (o : BitOrder) : (alphabetOf sym o).order = o := rfl

/-- A byte that is no symbol has the sentinel. -/
theorem inverseEntry_miss (sym : Table 32) (b : Byte) (h : ∀ i, sym.get i ≠ b) : inverseEntry sym b = sentinel := by
  have hb : b ∉ sym.entries := by simpa [Table.mem_entries_iff] using h
  have : sym.entries.idxOf b = 32 := by rw [List.idxOf_eq_length hb, sym.size_eq]
  simp [inverseEntry, this]

/-- A symbol has its index, when the symbols are distinct. -/
theorem inverseEntry_hit (sym : Table 32) (h : ∀ i j, sym.get i = sym.get j → i = j) (i : Fin 32) :
    inverseEntry sym (sym.get i) = BitVec.ofNat 8 i.val := by
  have hlt : sym.entries.idxOf (sym.get i) < sym.entries.length := List.idxOf_lt_length_of_mem (sym.get_mem i)
  have hk : sym.entries.idxOf (sym.get i) < 32 := by simpa using hlt
  have hg : sym.get ⟨_, hk⟩ = sym.get i := by simp [Table.get]
  have := congrArg Fin.val (h _ _ hg)
  simp only at this
  simp [inverseEntry, this]

/-- The constructor of an alphabet meets R24 when its symbols are printable and distinct. -/
theorem alphabetOf_wf (sym : Table 32) (o : BitOrder)
    (hp : ∀ i : Fin 32, 32 ≤ (sym.get i).toNat ∧ (sym.get i).toNat ≤ 126)
    (hd : ∀ i j : Fin 32, sym.get i = sym.get j → i = j) : (alphabetOf sym o).Wf where
  printable := hp
  distinct := hd
  inverse_hit i := by rw [decRead_alphabetOf]; exact inverseEntry_hit sym hd i
  inverse_miss b h := by rw [decRead_alphabetOf]; exact inverseEntry_miss sym b h

theorem romSym_printable (k : Builtin) (i : Fin 32) : 32 ≤ ((romSym k).get i).toNat ∧ ((romSym k).get i).toNat ≤ 126 := by
  cases k <;> revert i <;> decide +kernel

theorem romSym_distinct (k : Builtin) (i j : Fin 32) (h : (romSym k).get i = (romSym k).get j) : i = j := by
  revert h; revert i j; cases k <;> decide +kernel

/-- "Each string was checked for this spec to be 32 bytes long, all distinct, all in 32 to 126" (R25). -/
theorem rom_wf (k : Builtin) : (rom k).Wf := alphabetOf_wf _ _ (romSym_printable k) (romSym_distinct k)

/-- Under R24 an entry is the sentinel or a 5-bit value (R22, R76). -/
theorem Alphabet.Wf.decRead_cases {a : Alphabet} (h : a.Wf) (b : Byte) :
    decRead a b = sentinel ∨ ∃ i : Fin 32, a.enc.get i = b ∧ decRead a b = BitVec.ofNat 8 i.val := by
  by_cases hb : ∃ i, a.enc.get i = b
  · obtain ⟨i, rfl⟩ := hb
    exact .inr ⟨i, rfl, h.inverse_hit i⟩
  · exact .inl (h.inverse_miss b (by simpa using hb))

/-- Under R24 an entry that is not the sentinel is below 32. -/
theorem Alphabet.Wf.decRead_lt {a : Alphabet} (h : a.Wf) {b : Byte} (hb : decRead a b ≠ sentinel) :
    (decRead a b).toNat < 32 := by
  obtain h' | ⟨i, -, h'⟩ := h.decRead_cases b
  · exact absurd h' hb
  · rw [h', BitVec.toNat_ofNat]; omega

/-- Under R24 the sentinel is the entry of no symbol. -/
theorem Alphabet.Wf.decRead_enc_ne {a : Alphabet} (h : a.Wf) (i : Fin 32) : decRead a (a.enc.get i) ≠ sentinel := by
  rw [h.inverse_hit]
  intro hc
  have := congrArg BitVec.toNat hc
  simp [sentinel] at this
  omega

end Sys2Proof.Machine
end

