-- ==== Sys2Proof/Laws/Alphabet.lean ====
section
/-! SUPPORT. What the checks of BUILD decide (40_alphabet.md R105 to R107), and that what passes them meets R24. -/

namespace Sys2Proof.Machine

theorem printable_iff (b : Byte) : printable b = true ↔ 32 ≤ b.toNat ∧ b.toNat ≤ 126 := by
  simp [printable]

theorem firstUnprintable_none_iff (syms : List Byte) :
    firstUnprintable syms = none ↔ ∀ b ∈ syms, 32 ≤ b.toNat ∧ b.toNat ≤ 126 := by
  simp [firstUnprintable, printable_iff]

theorem firstRepeat_none_iff (seen syms : List Byte) :
    firstRepeat seen syms = none ↔ (∀ b ∈ syms, b ∉ seen) ∧ syms.Nodup := by
  induction syms generalizing seen with
  | nil => simp [firstRepeat]
  | cons b rest ih =>
    unfold firstRepeat
    split
    · simp_all
    · rw [ih]
      simp only [List.mem_cons, not_or, List.nodup_cons, forall_eq_or_imp]
      constructor
      · rintro ⟨h1, h2⟩
        exact ⟨⟨‹_›, fun x hx => (h1 x hx).2⟩, fun hb => (h1 b hb).1 rfl, h2⟩
      · rintro ⟨⟨-, h1⟩, h2, h3⟩
        exact ⟨fun x hx => ⟨fun e => h2 (e ▸ hx), h1 x hx⟩, h3⟩

/-- The symbols pass the checks 2 and 3 exactly when they are printable and distinct. -/
theorem symbolFault_none_iff (syms : List Byte) :
    symbolFault syms = none ↔ (∀ b ∈ syms, 32 ≤ b.toNat ∧ b.toNat ≤ 126) ∧ syms.Nodup := by
  have h1 := firstUnprintable_none_iff syms
  have h2 := firstRepeat_none_iff [] syms
  unfold symbolFault
  split
  · simp_all
  · split <;> simp_all

/-- A table that passes the checks makes an alphabet that meets R24. -/
theorem symbolFault_none_wf {t : Table 32} (h : symbolFault t.entries = none) (o : BitOrder) : (alphabetOf t o).Wf := by
  obtain ⟨hp, hd⟩ := (symbolFault_none_iff _).1 h
  refine alphabetOf_wf t o (fun i => hp _ (t.get_mem i)) fun i j hij => ?_
  have := (List.nodup_iff_injective_get.1 hd) (a₁ := ⟨i.val, by simp⟩) (a₂ := ⟨j.val, by simp⟩) (by simpa [Table.get] using hij)
  simpa [Fin.ext_iff] using this

/-- The kinds the checks can report (R183, R184). -/
theorem symbolFault_kind {syms : List Byte} {r : FaultReport} (h : symbolFault syms = some r) :
    (∃ b, r = .valUnprintableByte b) ∨ ∃ b, r = .valDuplicatedByte b := by
  unfold symbolFault at h
  split at h
  · exact .inl ⟨_, by simpa using h.symm⟩
  · split at h
    · exact .inr ⟨_, by simpa using h.symm⟩
    · simp at h

/-- What a check step can do: the fault, or the whole new alphabet (R103). -/
theorem buildCheck_cases (s : State) :
    (∃ r, symbolFault s.stage.entries = some r ∧ buildCheck s = s.raise r) ∨
    (symbolFault s.stage.entries = none ∧
      buildCheck s = { s with alpha := alphabetOf s.stage s.ordLatch, result := 0, ph := .idle, done := true }) := by
  unfold buildCheck
  split
  · exact .inl ⟨_, ‹_›, rfl⟩
  · exact .inr ⟨‹_›, rfl⟩

/-- What a BUILD start can do (R101). -/
theorem buildStart_cases (ord : BitOrder) (s : State) :
    (s.len = 32 ∧ buildStart ord s = { s.prologue with ordLatch := ord, ph := .build }) ∨
    (s.len ≠ 32 ∧ buildStart ord s = s.prologue.raise .valInvalidLength) := by
  unfold buildStart
  split
  · exact .inl ⟨‹_›, rfl⟩
  · exact .inr ⟨‹_›, rfl⟩

end Sys2Proof.Machine
end

