-- ==== Sys2Proof/Laws/Decode.lean ====
section
/-! SUPPORT. The laws of the command word (30_encoding.md R70, R71): fields and words. -/

namespace Sys2Proof

/-- Cutting a word into its fields and packing them gives the word back. -/
theorem packFields_fieldsOf (w : Byte) : packFields (fieldsOf w) = w := by
  revert w; decide +kernel

/-- The fields of a packed word are the fields packed. -/
theorem fieldsOf_packFields (f : CmdFields) : fieldsOf (packFields f) = f := by
  obtain ⟨z, l, r, p⟩ := f
  revert z l r p; decide +kernel

/-- The fields of a command's word are the command's. -/
theorem fieldsOf_encode (i : Instr) : fieldsOf (encode i) = i.fields := fieldsOf_packFields _

theorem encode_injective {i j : Instr} (h : encode i = encode j) : i = j := by
  revert h; cases i <;> cases j <;> decide

end Sys2Proof
end

