-- ==== Sys2Proof/Laws/Length.lean ====
section
/-! SUPPORT. The laws of the length arithmetic (41_length.md R121, R122, R124, R125). -/

namespace Sys2Proof.Machine

/-- X[r] = ceil(8*r/5) for r = 0..4 (R121). -/
theorem extraSymbols_eq (r : Nat) (h : r < 5) : extraSymbols r = (8 * r + 4) / 5 := by
  match r, h with
  | 0, _ | 1, _ | 2, _ | 3, _ | 4, _ => rfl

/-- "Equivalently m = ceil(8*n/5)" (R121). -/
theorem encodedSize_eq (n : Nat) : encodedSize n = (8 * n + 4) / 5 := by
  have h := Nat.mod_lt n (show 0 < 5 by omega)
  rw [encodedSize, extraSymbols_eq _ h]
  omega

theorem encodedLength_eq_some {w n m : Nat} : encodedLength w n = some m ↔ encodedSize n ≤ maxLen w ∧ m = encodedSize n := by
  unfold encodedLength; split <;> simp_all [eq_comm]

theorem encodedLength_eq_none {w n : Nat} : encodedLength w n = none ↔ maxLen w < encodedSize n := by
  unfold encodedLength; split <;> simp_all

/-- The value is at most n (R124). -/
theorem decodedLength_le (n : Nat) : decodedLength n ≤ n := by unfold decodedLength; omega

theorem maxLen_mono {w : Nat} (h : 8 ≤ w) : 255 ≤ maxLen w := by
  have := Nat.pow_le_pow_right (show 0 < 2 by omega) h
  unfold maxLen; omega

theorem lenBits_le (w v : Nat) : lenBits w v ≤ maxLen w := by
  have := Nat.mod_lt v (Nat.two_pow_pos w)
  unfold lenBits maxLen; omega

end Sys2Proof.Machine
end

