-- ==== Sys2Proof/Laws/Encoder.lean ====
section
/-! SUPPORT. What the packer of ENCODE does (42_encoder.md R132 to R135), in closed form. -/

namespace Sys2Proof.Machine

theorem encDrain_pend (o : BitOrder) (fuel acc pend : Nat) (h : pend ≤ fuel) :
    (encDrain o fuel acc pend).pend = pend % 5 := by
  induction fuel generalizing acc pend with
  | zero => simp only [encDrain]; omega
  | succ fuel ih =>
    unfold encDrain
    split
    · cases o <;> simp only <;> rw [ih _ _ (by omega)] <;> omega
    · simp only; omega

/-- Normal order: the loop takes the values from the top of the pending bits and leaves ACC. -/
theorem encDrain_normal (fuel acc pend : Nat) (h : pend ≤ fuel) :
    encDrain .normal fuel acc pend =
      { values := (List.range (pend / 5)).map (fun j => mask5 (acc >>> (pend - 5 * (j + 1)))), acc := acc, pend := pend % 5 } := by
  induction fuel generalizing pend with
  | zero => simp [encDrain, show pend = 0 by omega]
  | succ fuel ih =>
    unfold encDrain
    split
    · have hq : pend / 5 = (pend - 5) / 5 + 1 := by omega
      have hf : ∀ j, pend - 5 - 5 * (j + 1) = pend - 5 * (j + 1 + 1) := fun j => by omega
      simp only [ih _ (show pend - 5 ≤ fuel by omega), hq, List.range_succ_eq_map, List.map_cons, List.map_map, hf,
        show (pend - 5) % 5 = pend % 5 by omega]
      rfl
    · simp [show pend / 5 = 0 by omega, show pend % 5 = pend by omega]

/-- Inverted order: the loop takes the values from the bottom and shifts ACC right after each. -/
theorem encDrain_inverted (fuel acc pend : Nat) (h : pend ≤ fuel) :
    encDrain .inverted fuel acc pend =
      { values := (List.range (pend / 5)).map (fun j => mask5 (acc >>> (5 * j))), acc := acc >>> (5 * (pend / 5)), pend := pend % 5 } := by
  induction fuel generalizing acc pend with
  | zero => simp [encDrain, show pend = 0 by omega]
  | succ fuel ih =>
    unfold encDrain
    split
    · have hq : pend / 5 = (pend - 5) / 5 + 1 := by omega
      have hf : ∀ j, (acc >>> 5) >>> (5 * j) = acc >>> (5 * (j + 1)) := fun j => by
        rw [← Nat.shiftRight_add, Nat.mul_add, Nat.add_comm]
      simp only [ih _ _ (show pend - 5 ≤ fuel by omega), hq, List.range_succ_eq_map, List.map_cons, List.map_map, hf,
        show (pend - 5) % 5 = pend % 5 by omega]
      rfl
    · simp [show pend / 5 = 0 by omega, show pend % 5 = pend by omega]

theorem lowBits_eq (v k : Nat) : lowBits v k = v % 2 ^ k := by
  rw [lowBits, Nat.one_shiftLeft, Nat.and_two_pow_sub_one_eq_mod]

/-- One byte, Normal order (R132): all that the step computes. -/
theorem encPack_normal (acc pend : Nat) (b : Byte) :
    encPack .normal acc pend b =
      { values := (List.range ((pend + 8) / 5)).map (fun j => mask5 ((acc <<< 8 ||| b.toNat) >>> (pend + 8 - 5 * (j + 1))))
        acc := (acc <<< 8 ||| b.toNat) % 2 ^ ((pend + 8) % 5)
        pend := (pend + 8) % 5 } := by
  simp only [encPack, encDrain_normal _ _ _ (Nat.le_refl _), encMerge, lowBits_eq]

/-- One byte, Inverted order (R133): all that the step computes. -/
theorem encPack_inverted (acc pend : Nat) (b : Byte) :
    encPack .inverted acc pend b =
      { values := (List.range ((pend + 8) / 5)).map (fun j => mask5 ((acc ||| b.toNat <<< pend) >>> (5 * j)))
        acc := (acc ||| b.toNat <<< pend) >>> (5 * ((pend + 8) / 5))
        pend := (pend + 8) % 5 } := by
  simp only [encPack, encDrain_inverted _ _ _ (Nat.le_refl _), encMerge]

theorem encPack_pend (o : BitOrder) (acc pend : Nat) (b : Byte) : (encPack o acc pend b).pend = (pend + 8) % 5 := by
  cases o <;> simp [encPack_normal, encPack_inverted]

theorem encPack_values_length (o : BitOrder) (acc pend : Nat) (b : Byte) :
    (encPack o acc pend b).values.length = (pend + 8) / 5 := by
  cases o <;> simp [encPack_normal, encPack_inverted]

/-- The pending bits are all that is left (R26). -/
theorem encPack_acc_lt (o : BitOrder) (acc pend : Nat) (b : Byte) (h : acc < 2 ^ pend) :
    (encPack o acc pend b).acc < 2 ^ ((pend + 8) % 5) := by
  cases o with
  | normal => rw [encPack_normal]; exact Nat.mod_lt _ (Nat.two_pow_pos _)
  | inverted =>
    rw [encPack_inverted]
    simp only
    rw [Nat.shiftRight_eq_div_pow, Nat.div_lt_iff_lt_mul (Nat.two_pow_pos _), ← Nat.pow_add,
      show (pend + 8) % 5 + 5 * ((pend + 8) / 5) = pend + 8 by omega]
    apply Nat.or_lt_two_pow
    · exact Nat.lt_of_lt_of_le h (Nat.pow_le_pow_right (by omega) (by omega))
    · rw [Nat.shiftLeft_eq, Nat.pow_add, Nat.mul_comm]
      exact Nat.mul_lt_mul_of_pos_left b.isLt (Nat.two_pow_pos _)

theorem encLast_length (o : BitOrder) (acc pend : Nat) : (encLast o acc pend).length = if 0 < pend then 1 else 0 := by
  unfold encLast; split <;> cases o <;> rfl

@[simp] theorem symbolsOf_length (a : Alphabet) (vs : List Val5) : (symbolsOf a vs).length = vs.length := by
  simp [symbolsOf]

@[simp] theorem symbolsOf_append (a : Alphabet) (vs ws : List Val5) :
    symbolsOf a (vs ++ ws) = symbolsOf a vs ++ symbolsOf a ws := by simp [symbolsOf]

@[simp] theorem sinkTakes_ready (s : State) (items : List Byte) (h : s.outReady = true) : s.sinkTakes items = true := by
  simp [State.sinkTakes, h]

/-- What a byte step of ENCODE can do: hold, or move one item in and its symbols out. -/
theorem encodeByte_cases (b : Byte) (rest : List Byte) (s : State) :
    encodeByte b rest s = s ∨
    encodeByte b rest s =
      { s with
        acc := toAcc (encPack s.alpha.order s.acc.toNat s.pend.toNat b).acc
        pend := toPend (encPack s.alpha.order s.acc.toNat s.pend.toNat b).pend
        out := s.out ++ symbolsOf s.alpha (encPack s.alpha.order s.acc.toNat s.pend.toNat b).values
        outcnt := s.outcnt + (encPack s.alpha.order s.acc.toNat s.pend.toNat b).values.length
        inp := rest
        idx := s.idx + 1 } := by
  unfold encodeByte
  simp only
  split
  · exact .inr (by simp [State.putOut, State.consume])
  · exact .inl rfl

/-- What the finish step of ENCODE can do: hold, or put out the last symbol and complete. -/
theorem encodeFinish_cases (s : State) :
    encodeFinish s = s ∨
    encodeFinish s =
      { s with
        out := s.out ++ symbolsOf s.alpha (encLast s.alpha.order s.acc.toNat s.pend.toNat)
        outcnt := s.outcnt + (encLast s.alpha.order s.acc.toNat s.pend.toNat).length
        result := s.outcnt + (encLast s.alpha.order s.acc.toNat s.pend.toNat).length
        ph := .idle
        done := true } := by
  unfold encodeFinish
  simp only
  split
  · exact .inr (by simp [State.putOut, State.complete, State.setDone])
  · exact .inl rfl

end Sys2Proof.Machine
end

