-- ==== Sys2Proof/Laws/Decoder.lean ====
section
/-! SUPPORT. What the unpacker of DECODE does (43_decoder.md R152 to R156). -/

namespace Sys2Proof.Machine

theorem decUnpack_pend (o : BitOrder) (acc pend v : Nat) (h : pend < 8) :
    (decUnpack o acc pend v).pend = (pend + 5) % 8 := by
  unfold decUnpack
  simp only
  split
  · cases o <;> simp only <;> omega
  · simp only; omega

theorem decUnpack_bytes_length (o : BitOrder) (acc pend v : Nat) (h : pend < 8) :
    (decUnpack o acc pend v).bytes.length = (pend + 5) / 8 := by
  unfold decUnpack
  simp only
  split
  · cases o <;> simp only [List.length_cons, List.length_nil] <;> omega
  · simp only [List.length_nil]; omega

theorem decMerge_lt (o : BitOrder) (acc pend v : Nat) (ha : acc < 2 ^ pend) (hv : v < 32) :
    decMerge o acc pend v < 2 ^ (pend + 5) := by
  have h5 : v < 2 ^ 5 := hv
  cases o with
  | normal =>
    apply Nat.or_lt_two_pow
    · rw [Nat.shiftLeft_eq, Nat.pow_add]; exact Nat.mul_lt_mul_of_pos_right ha (by omega)
    · exact Nat.lt_of_lt_of_le h5 (Nat.pow_le_pow_right (by omega) (by omega))
  | inverted =>
    apply Nat.or_lt_two_pow
    · exact Nat.lt_of_lt_of_le ha (Nat.pow_le_pow_right (by omega) (by omega))
    · rw [Nat.shiftLeft_eq, Nat.pow_add, Nat.mul_comm]; exact Nat.mul_lt_mul_of_pos_left h5 (Nat.two_pow_pos _)

/-- The pending bits are all that is left (R26). -/
theorem decUnpack_acc_lt (o : BitOrder) (acc pend v : Nat) (ha : acc < 2 ^ pend) (hv : v < 32) :
    (decUnpack o acc pend v).acc < 2 ^ (decUnpack o acc pend v).pend := by
  have hm := decMerge_lt o acc pend v ha hv
  unfold decUnpack
  simp only
  split
  · cases o with
    | normal => simp only [lowBits_eq]; exact Nat.mod_lt _ (Nat.two_pow_pos _)
    | inverted =>
      simp only
      rw [Nat.shiftRight_eq_div_pow, Nat.div_lt_iff_lt_mul (Nat.two_pow_pos _), ← Nat.pow_add,
        show pend + 5 - 8 + 8 = pend + 5 by omega]
      exact hm
  · exact hm

/-- What part 2 of the symbol step can do: hold, or move one item in and its byte, if any, out. -/
theorem decodeValue_cases (v : Nat) (rest : List Byte) (s : State) :
    decodeValue v rest s = s ∨
    decodeValue v rest s =
      { s with
        acc := toAcc (decUnpack s.alpha.order s.acc.toNat s.pend.toNat v).acc
        pend := toPend (decUnpack s.alpha.order s.acc.toNat s.pend.toNat v).pend
        out := s.out ++ (decUnpack s.alpha.order s.acc.toNat s.pend.toNat v).bytes
        outcnt := s.outcnt + (decUnpack s.alpha.order s.acc.toNat s.pend.toNat v).bytes.length
        inp := rest
        idx := s.idx + 1 } := by
  unfold decodeValue
  simp only
  split
  · exact .inr (by simp [State.putOut, State.consume])
  · exact .inl rfl

/-- What a symbol step can answer with: a fault of the CORE, a value taken, or the stop outside R24. -/
theorem decodeSymbol_next {c : Byte} {rest : List Byte} {s t : State} (h : decodeSymbol c rest s = .next t) :
    (decRead s.alpha c = sentinel ∧ t = decodeInvalid c rest s) ∨
    (decRead s.alpha c ≠ sentinel ∧ (decRead s.alpha c).toNat < 32 ∧ t = decodeValue (decRead s.alpha c).toNat rest s) := by
  unfold decodeSymbol at h
  split at h
  · exact .inl ⟨‹_›, by simpa using h.symm⟩
  · split at h
    · exact .inr ⟨‹_›, ‹_›, by simpa using h.symm⟩
    · simp at h

end Sys2Proof.Machine
end

