-- ==== Sys2Proof/Laws/Flags.lean ====
section
/-! SUPPORT. STATUS after each way an operation can stand: running, completed, faulted (10_state.md R33, 60_exceptions.md R181). -/

namespace Sys2Proof.Machine

/-- STATUS reads 0x02 after done() (R174). -/
theorem State.status_of_done {s : State} (hb : s.busy = false) (hd : s.done = true) (he : s.err = false)
    (hk : s.errKind = .none) : s.status = 0x02#8 := by
  simp only [State.status, hb, hd, he, hk]; rfl

/-- STATUS reads code * 16 + 4 after a fault (R181). -/
theorem State.status_of_err {s : State} (hb : s.busy = false) (hd : s.done = false) (he : s.err = true) :
    s.status.toNat = 16 * s.errKind.code.toNat + 4 := by
  simp only [State.status, hb, hd, he]
  cases s.errKind <;> rfl

/-- STATUS reads 0x01 while an operation runs. -/
theorem State.status_of_busy {s : State} (hb : s.busy = true) (hd : s.done = false) (he : s.err = false)
    (hk : s.errKind = .none) : s.status = 0x01#8 := by
  simp only [State.status, hb, hd, he, hk]; rfl

/-- STATUS after a completion that no fault precedes. -/
theorem State.complete_status (s : State) (m : Nat) (he : s.err = false) (hk : s.errKind = .none) :
    (s.complete m).status = 0x02#8 := State.status_of_done rfl rfl he hk

/-- STATUS after taking a fault. -/
theorem State.raise_status (s : State) (r : FaultReport) : (s.raise r).status.toNat = 16 * r.kind.code.toNat + 4 :=
  State.status_of_err rfl rfl rfl

/-- STATUS reads 0x00 after reset (R42). -/
@[simp] theorem State.resetAt_status (w : Nat) : (State.resetAt w).status = 0x00#8 := by
  simp only [State.status, State.resetAt, State.busy]; rfl

/-- STATUS reads 0x00 after a reset step. -/
@[simp] theorem State.resetCore_status (s : State) : s.resetCore.status = 0x00#8 := State.resetAt_status s.lenW

theorem busy_of_ph {s : State} (h : s.ph ≠ .idle) : s.busy = true := by
  simp [State.busy, h]

theorem not_busy_of_ph {s : State} (h : s.ph = .idle) : s.busy = false := by
  simp [State.busy, h]

end Sys2Proof.Machine
end

