-- ==== Sys2Proof/Laws/Step.lean ====
section
/-! SUPPORT. What one step can do, said once (44_system.md R171, R176): by who acts, by host event, by phase. -/

namespace Sys2Proof.Machine

/-- The step while rst is 1 (R210). -/
theorem step_of_rst {s : State} (h : s.rst = true) : step s = .next (resetStep s) := by
  simp [step, oneStep, h]

/-- The step with a host event first. -/
theorem step_of_event {s : State} {e : HostEvent} {rest : List HostEvent} (h : s.rst = false) (he : s.host = e :: rest) :
    step s = hostStep e { s with host := rest } := by
  simp [step, oneStep, h, he]

/-- The step with no host event to come. -/
theorem step_of_core {s : State} (h : s.rst = false) (he : s.host = []) : step s = coreStep s := by
  simp [step, oneStep, h, he]

/-- Who acts in a step that answers a next state. -/
theorem step_next_cases {s t : State} (h : step s = .next t) :
    (s.rst = true ∧ t = resetStep s) ∨
    (s.rst = false ∧ s.host = [] ∧ coreStep s = .next t) ∨
    (∃ e rest, s.rst = false ∧ s.host = e :: rest ∧ hostStep e { s with host := rest } = .next t) := by
  by_cases hr : s.rst = true
  · rw [step_of_rst hr] at h
    exact .inl ⟨hr, by simpa using h.symm⟩
  · have hr : s.rst = false := by simpa using hr
    cases hh : s.host with
    | nil => rw [step_of_core hr hh] at h; exact .inr (.inl ⟨hr, rfl, h⟩)
    | cons e rest => rw [step_of_event hr hh] at h; exact .inr (.inr ⟨e, rest, hr, rfl, h⟩)

/-- The CORE's own step, by phase. -/
theorem coreStep_next_cases {s t : State} (h : coreStep s = .next t) :
    (s.ph = .idle ∧ t = s) ∨ (s.ph = .build ∧ t = buildStep s) ∨ (s.ph = .enc ∧ t = encStep s) ∨
    (s.ph = .dec ∧ decStep s = .next t) := by
  unfold coreStep at h
  split at h
  · exact .inl ⟨‹_›, by simpa using h.symm⟩
  · exact .inr (.inl ⟨‹_›, by simpa using h.symm⟩)
  · exact .inr (.inr (.inl ⟨‹_›, by simpa using h.symm⟩))
  · exact .inr (.inr (.inr ⟨‹_›, h⟩))

/-- What the step of phase BUILD can do: hold, fill (R102), check (R103). -/
theorem buildStep_cases (s : State) :
    buildStep s = s ∨ (∃ b rest, s.idx < 32 ∧ s.inp = b :: rest ∧ buildStep s = buildFill b rest s) ∨
    (s.idx = 32 ∧ buildStep s = buildCheck s) := by
  unfold buildStep
  split
  · split
    · exact .inl rfl
    · exact .inr (.inl ⟨_, _, ‹_›, ‹_›, rfl⟩)
  · split
    · exact .inr (.inr ⟨‹_›, rfl⟩)
    · exact .inl rfl

/-- What the step of phase ENC can do: hold, a byte (R132, R133), the finish (R135). -/
theorem encStep_cases (s : State) :
    encStep s = s ∨ (∃ b rest, s.idx < s.len ∧ s.inp = b :: rest ∧ encStep s = encodeByte b rest s) ∨
    (s.idx = s.len ∧ encStep s = encodeFinish s) := by
  unfold encStep
  split
  · split
    · exact .inl rfl
    · exact .inr (.inl ⟨_, _, ‹_›, ‹_›, rfl⟩)
  · split
    · exact .inr (.inr ⟨‹_›, rfl⟩)
    · exact .inl rfl

/-- What the step of phase DEC can do: hold, a symbol (R152), the finish (R156). -/
theorem decStep_cases (s : State) :
    decStep s = .next s ∨ (∃ c rest, s.idx < s.len ∧ s.inp = c :: rest ∧ decStep s = decodeSymbol c rest s) ∨
    (s.idx = s.len ∧ decStep s = .next (decodeFinish s)) := by
  unfold decStep
  split
  · split
    · exact .inl rfl
    · exact .inr (.inl ⟨_, _, ‹_›, ‹_›, rfl⟩)
  · split
    · exact .inr (.inr ⟨‹_›, rfl⟩)
    · exact .inl rfl

/-- What a host event can do (R220). -/
theorem hostStep_next_cases {e : HostEvent} {s t : State} (h : hostStep e s = .next t) :
    (∃ data, e = .write 0 data ∧ s.busy = false ∧ acceptCommand (BitVec.ofNat 8 data) s = .next t) ∨
    (∃ data, e = .write 2 data ∧ s.busy = false ∧ t = { s with len := lenBits s.lenW data }) ∨
    (e = .rst true ∧ t = (s.hostSide (.rst true)).resetCore) ∨
    (e = .tick ∧ coreStep s = .next t) ∨
    (∃ inp outReady, t = { s with inp := inp, outReady := outReady }) := by
  unfold hostStep at h
  split at h
  · rename_i reg data
    unfold writeReg at h
    split at h
    · split at h
      · exact .inr (.inr (.inr (.inr ⟨s.inp, s.outReady, by simpa using h.symm⟩)))
      · rename_i hb
        exact .inl ⟨data, rfl, by simpa using hb, h⟩
    · by_cases hb : s.busy
      · exact .inr (.inr (.inr (.inr ⟨s.inp, s.outReady, by simpa [State.writeLen, hb] using h.symm⟩)))
      · exact .inr (.inl ⟨data, rfl, by simpa using hb, by simpa [State.writeLen, hb] using h.symm⟩)
    · exact .inr (.inr (.inr (.inr ⟨s.inp, s.outReady, by simpa using h.symm⟩)))
  · rename_i b
    exact .inr (.inr (.inr (.inr ⟨s.inp ++ [b], s.outReady, by simpa [State.hostSide] using h.symm⟩)))
  · exact .inr (.inr (.inr (.inr ⟨[], s.outReady, by simpa [State.hostSide] using h.symm⟩)))
  · rename_i r
    exact .inr (.inr (.inr (.inr ⟨s.inp, r, by simpa [State.hostSide] using h.symm⟩)))
  · exact .inr (.inr (.inl ⟨rfl, by simpa using h.symm⟩))
  · exact .inr (.inr (.inr (.inr ⟨s.inp, s.outReady, by simpa using h.symm⟩)))
  · exact .inr (.inr (.inr (.inl ⟨rfl, h⟩)))

/-- What acceptance can do (R173): run the command the word decodes to, or the fault ILLEGAL_CMD. -/
theorem acceptCommand_next_cases {w : Byte} {s t : State} (h : acceptCommand w s = .next t) :
    (∃ i, decode w = .command i ∧ exec i s = .next t) ∨
    (∃ why, decode w = .illegal why ∧ t = s.prologue.raise .illegalCmd) := by
  unfold acceptCommand at h
  split at h
  · exact .inl ⟨_, ‹_›, h⟩
  · exact .inr ⟨_, ‹_›, by simpa using h.symm⟩

/-- What the acceptance of a command can leave (R173 with the start rules): completed at once with some result and
perhaps a built-in alphabet, faulted at once with the alphabet as it was, or started. -/
theorem exec_next_cases {i : Instr} {s t : State} (h : exec i s = .next t) :
    (∃ m, t = s.prologue.complete m ∧ (m = 0 ∨ encodedLength s.lenW s.len = some m ∨ m = decodedLength s.len)) ∨
    (∃ k, t = loadBuiltin k s) ∨
    (t = s.prologue.raise .valInvalidLength ∧ s.len ≠ 32) ∨
    (t = s.prologue.raise .lenOverflow ∧ encodedLength s.lenW s.len = none) ∨
    (∃ o, t = { s.prologue with ordLatch := o, ph := .build } ∧ s.len = 32) ∨
    (∃ m, t = { s.prologue with ph := .enc } ∧ encodedLength s.lenW s.len = some m) ∨
    t = { s.prologue with ph := .dec } := by
  cases i <;> simp only [exec, execClr, execLoadbZbase32, execLoadbRfc4648, execLoadbBech32, execBuildNormal,
    execBuildInverted, execEnclen, execDeclen, execEncode, execDecode, Host.Outcome.next.injEq] at h
  case clr => exact .inl ⟨0, h.symm, .inl rfl⟩
  case loadbZbase32 => exact .inr (.inl ⟨_, h.symm⟩)
  case loadbRfc4648 => exact .inr (.inl ⟨_, h.symm⟩)
  case loadbBech32 => exact .inr (.inl ⟨_, h.symm⟩)
  case buildNormal =>
    obtain ⟨hl, hb⟩ | ⟨hl, hb⟩ := buildStart_cases .normal s
    · exact .inr (.inr (.inr (.inr (.inl ⟨_, h.symm.trans hb, hl⟩))))
    · exact .inr (.inr (.inl ⟨h.symm.trans hb, hl⟩))
  case buildInverted =>
    obtain ⟨hl, hb⟩ | ⟨hl, hb⟩ := buildStart_cases .inverted s
    · exact .inr (.inr (.inr (.inr (.inl ⟨_, h.symm.trans hb, hl⟩))))
    · exact .inr (.inr (.inl ⟨h.symm.trans hb, hl⟩))
  case enclen =>
    split at h
    · exact .inl ⟨_, by simpa using h.symm, .inr (.inl ‹_›)⟩
    · exact .inr (.inr (.inr (.inl ⟨by simpa using h.symm, ‹_›⟩)))
  case declen => exact .inl ⟨_, h.symm, .inr (.inr rfl)⟩
  case encode =>
    split at h
    · exact .inr (.inr (.inr (.inr (.inr (.inl ⟨_, by simpa using h.symm, ‹_›⟩)))))
    · exact .inr (.inr (.inr (.inl ⟨by simpa using h.symm, ‹_›⟩)))
  case decode => exact .inr (.inr (.inr (.inr (.inr (.inr h.symm)))))

end Sys2Proof.Machine
end

