-- ==== Sys2Proof/Laws/Invariant.lean ====
section
/-! SUPPORT. What each part of a step does to the invariants (10_state.md R24, R26, R28, R29, R38). The statement about step itself is left to the provers. -/

namespace Sys2Proof.Machine

theorem busy_iff (s : State) : s.busy = true ↔ s.ph ≠ .idle := by simp [State.busy]
theorem not_busy_iff (s : State) : s.busy = false ↔ s.ph = .idle := by simp [State.busy]

/-- The invariants of an idle state: what is left of them when no operation runs. -/
theorem State.Inv.of_idle {s t : State} (h : s.Inv) (hp : t.ph = .idle) (hw : t.lenW = s.lenW) (ha : t.alpha.Wf)
    (hf : (t.done && t.err) = false) (hk : t.err = true ↔ t.errKind ≠ .none) (hc : t.err = false → t.errOffset = 0 ∧ t.errByte = 0)
    (hr : t.errKind ≠ .decInvalidLength) (h1 : t.len ≤ maxLen s.lenW) (h2 : t.result ≤ maxLen s.lenW)
    (h3 : t.errOffset ≤ maxLen s.lenW) (h4 : t.idx ≤ maxLen s.lenW) (h5 : t.outcnt ≤ maxLen s.lenW) : t.Inv where
  width := hw ▸ h.width
  alphabet := ha
  one_flag := by simp [State.busy, hp, hf]
  err_kind := hk
  err_clear := hc
  no_reserved_kind := hr
  len_fits := hw ▸ h1
  result_fits := hw ▸ h2
  errOffset_fits := hw ▸ h3
  idx_fits := hw ▸ h4
  outcnt_fits := hw ▸ h5
  building := by simp [hp]
  encoding := by simp [hp]
  decoding := by simp [hp]

theorem prologue_complete_inv {s : State} (h : s.Inv) {m : Nat} (hm : m ≤ maxLen s.lenW) : (s.prologue.complete m).Inv :=
  State.Inv.of_idle h rfl rfl h.alphabet rfl (by simp) (by simp) (by simp) h.len_fits hm (by simp) (by simp) (by simp)

/-- Taking a fault keeps the invariants (R190). -/
theorem raise_inv {s u : State} (h : s.Inv) (hw : u.lenW = s.lenW) (ha : u.alpha.Wf) (hl : u.len ≤ maxLen s.lenW)
   (hi : u.idx ≤ maxLen s.lenW) (ho : u.outcnt ≤ maxLen s.lenW) (r : FaultReport) (hr : r.offset ≤ maxLen s.lenW) (hk : r.kind ≠ .decInvalidLength) : (u.raise r).Inv :=
  State.Inv.of_idle h rfl hw ha rfl (by cases r <;> simp [FaultReport.kind]) (by simp) hk hl (by simp) hr hi ho

/-- Acceptance of a command keeps the invariants (R173 with the start rules). -/
theorem exec_inv {i : Instr} {s t : State} (h : s.Inv) (he : exec i s = .next t) : t.Inv := by
  have h255 := maxLen_mono h.width
  obtain ⟨m, rfl, hm⟩ | ⟨k, rfl⟩ | ⟨rfl, -⟩ | ⟨rfl, -⟩ | ⟨o, rfl, hl⟩ | ⟨m, rfl, hm⟩ | rfl := exec_next_cases he
  · apply prologue_complete_inv h
    obtain rfl | hm | rfl := hm
    · omega
    · obtain ⟨h1, rfl⟩ := encodedLength_eq_some.1 hm; exact h1
    · exact Nat.le_trans (decodedLength_le _) h.len_fits
  · exact State.Inv.of_idle h rfl rfl (rom_wf k) rfl (by simp [loadBuiltin]) (by simp [loadBuiltin]) (by simp [loadBuiltin]) h.len_fits (by simp [loadBuiltin]) (by simp [loadBuiltin]) (by simp [loadBuiltin]) (by simp [loadBuiltin])
  · exact raise_inv (u := s.prologue) (r := .valInvalidLength) h rfl h.alphabet h.len_fits (by simp) (by simp) (by simp [FaultReport.offset]) (by simp [FaultReport.kind])
  · exact raise_inv (u := s.prologue) (r := .lenOverflow) h rfl h.alphabet h.len_fits (by simp) (by simp) (by simp [FaultReport.offset]) (by simp [FaultReport.kind])
  · constructor <;> simp_all [State.busy, h.alphabet, h.result_fits, h.width]
    omega
  · obtain ⟨h1, rfl⟩ := encodedLength_eq_some.1 hm
    constructor <;> simp_all [State.busy, h.alphabet, h.len_fits, h.result_fits, h.width]
  · constructor <;> simp_all [State.busy, h.alphabet, h.len_fits, h.result_fits, h.width]

/-- While an operation runs no flag is set and no payload is held (R38). -/
theorem busy_flags {s : State} (h : s.Inv) (hp : s.ph ≠ .idle) : s.done = false ∧ s.err = false ∧ s.errKind = .none ∧ s.errOffset = 0 ∧ s.errByte = 0 := by
  have hb := (busy_iff s).2 hp
  have := h.one_flag; simp only [hb, Bool.true_and] at this
  have he := this.2.1
  have hk := h.err_kind
  exact ⟨this.1, he, by by_contra hc; have := hk.2 hc; simp [he] at this, h.err_clear he⟩

/-- A BUILD step keeps the invariants (R102, R103). -/
theorem buildStep_inv {s : State} (h : s.Inv) (hp : s.ph = .build) : (buildStep s).Inv := by
  obtain ⟨hd, he, hk, ho, hb⟩ := busy_flags h (by simp [hp])
  have hbu := h.building hp
  have h255 := maxLen_mono h.width
  obtain hs | ⟨b, rest, hi, hin, hs⟩ | ⟨hi, hs⟩ := buildStep_cases s
  · rwa [hs]
  · rw [hs]
    have := h.alphabet
    constructor <;> simp_all [buildFill, State.consume, State.busy, h.width, h.result_fits] <;> omega
  · rw [hs]
    obtain ⟨r, hr, hc⟩ | ⟨hr, hc⟩ := buildCheck_cases s
    · rw [hc]
      apply raise_inv h rfl h.alphabet h.len_fits h.idx_fits h.outcnt_fits
      · obtain ⟨b, rfl⟩ | ⟨b, rfl⟩ := symbolFault_kind hr <;> simp [FaultReport.offset]
      · obtain ⟨b, rfl⟩ | ⟨b, rfl⟩ := symbolFault_kind hr <;> simp [FaultReport.kind]
    · rw [hc]
      exact State.Inv.of_idle h rfl rfl (symbolFault_none_wf hr _) (by simp [he]) (by simp [he, hk]) (fun _ => ⟨ho, hb⟩) (by simp [hk]) h.len_fits (by simp) h.errOffset_fits h.idx_fits h.outcnt_fits

/-- An ENCODE step keeps the invariants (R132, R133, R134, R135). -/
theorem encStep_inv {s : State} (h : s.Inv) (hp : s.ph = .enc) : (encStep s).Inv := by
  obtain ⟨hd, he, hk, ho, hb⟩ := busy_flags h (by simp [hp])
  obtain ⟨h1, h2, h3, h4, h5⟩ := h.encoding hp
  obtain hs | ⟨b, rest, hi, hin, hs⟩ | ⟨hi, hs⟩ := encStep_cases s
  · rwa [hs]
  · rw [hs]
    obtain hs' | hs' := encodeByte_cases b rest s
    · rwa [hs']
    · rw [hs']
      have hlt := encPack_acc_lt s.alpha.order _ _ b h4
      have hpe := encPack_pend s.alpha.order s.acc.toNat s.pend.toNat b
      have hvl := encPack_values_length s.alpha.order s.acc.toNat s.pend.toNat b
      have hpp : (toPend (encPack s.alpha.order s.acc.toNat s.pend.toNat b).pend).toNat = (s.pend.toNat + 8) % 5 := by
        rw [hpe, toPend, BitVec.toNat_ofNat]; omega
      have hle := h.len_fits
      have hee := encodedSize_eq s.len
      refine ⟨h.width, h.alphabet, ?_, ?_, ?_, ?_, h.len_fits, h.result_fits, h.errOffset_fits, ?_, ?_, ?_, ?_, ?_⟩ <;> simp only
      · simp [State.busy, hd, he]
      · simp [he, hk]
      · exact fun _ => ⟨ho, hb⟩
      · simp [hk]
      · omega
      · rw [hvl]; omega
      · simp [hp]
      · intro _
        refine ⟨hi, h2, ?_, ?_, ?_⟩
        · rw [hpp]; omega
        · rw [hpp, toAcc, BitVec.toNat_ofNat]; exact Nat.lt_of_le_of_lt (Nat.mod_le _ _) hlt
        · rw [hvl]; omega
      · simp [hp]
  · rw [hs]
    obtain hs' | hs' := encodeFinish_cases s
    · rwa [hs']
    · rw [hs']
      have hle := encLast_length s.alpha.order s.acc.toNat s.pend.toNat
      have hee := encodedSize_eq s.len
      have : s.outcnt + (encLast s.alpha.order s.acc.toNat s.pend.toNat).length ≤ maxLen s.lenW := by
        rw [hle]; split <;> omega
      exact State.Inv.of_idle h rfl rfl h.alphabet (by simp [he]) (by simp [he, hk]) (fun _ => ⟨ho, hb⟩) (by simp [hk]) h.len_fits this h.errOffset_fits h.idx_fits this

/-- A DECODE step keeps the invariants (R152 to R156). -/
theorem decStep_inv {s t : State} (h : s.Inv) (hp : s.ph = .dec) (hst : decStep s = .next t) : t.Inv := by
  obtain ⟨hd, he, hk, ho, hb⟩ := busy_flags h (by simp [hp])
  obtain ⟨h1, h3, h4, h5⟩ := h.decoding hp
  obtain hs | ⟨c, rest, hi, hin, hs⟩ | ⟨hi, hs⟩ := decStep_cases s
  · rw [hs] at hst; obtain rfl : s = t := by simpa using hst
    exact h
  · rw [hs] at hst
    obtain ⟨-, rfl⟩ | ⟨hns, hlt, rfl⟩ := decodeSymbol_next hst
    · exact raise_inv (u := { s with inp := rest }) (r := .decInvalidByte s.idx c) h rfl h.alphabet h.len_fits h.idx_fits h.outcnt_fits h.idx_fits (by simp [FaultReport.kind])
    · obtain hs' | hs' := decodeValue_cases (decRead s.alpha c).toNat rest s
      · rwa [hs']
      · rw [hs']
        generalize (decRead s.alpha c).toNat = v at *
        have hal := decUnpack_acc_lt s.alpha.order s.acc.toNat s.pend.toNat v h4 hlt
        have hpe := decUnpack_pend s.alpha.order s.acc.toNat s.pend.toNat v (by omega)
        have hvl := decUnpack_bytes_length s.alpha.order s.acc.toNat s.pend.toNat v (by omega)
        have hpp : (toPend (decUnpack s.alpha.order s.acc.toNat s.pend.toNat v).pend).toNat = (s.pend.toNat + 5) % 8 := by
          rw [hpe, toPend, BitVec.toNat_ofNat]; omega
        have hle := h.len_fits
        refine ⟨h.width, h.alphabet, ?_, ?_, ?_, ?_, h.len_fits, h.result_fits, h.errOffset_fits, ?_, ?_, ?_, ?_, ?_⟩ <;> simp only
        · simp [State.busy, hd, he]
        · simp [he, hk]
        · exact fun _ => ⟨ho, hb⟩
        · simp [hk]
        · omega
        · rw [hvl]; omega
        · simp [hp]
        · simp [hp]
        · intro _
          refine ⟨hi, ?_, ?_, ?_⟩
          · rw [hpp]; omega
          · rw [hpp, toAcc, BitVec.toNat_ofNat]; rw [hpe] at hal; exact Nat.lt_of_le_of_lt (Nat.mod_le _ _) hal
          · rw [hvl]; omega
  · rw [hs] at hst; obtain rfl : decodeFinish s = t := by simpa using hst
    have hle := h.len_fits
    exact State.Inv.of_idle h rfl rfl h.alphabet (by simp [decodeFinish, he]) (by simp [decodeFinish, he, hk]) (fun _ => ⟨ho, hb⟩) (by simp [decodeFinish, hk]) h.len_fits h.outcnt_fits h.errOffset_fits h.idx_fits h.outcnt_fits

/-- The CORE's own step keeps the invariants. -/
theorem coreStep_inv {s t : State} (h : s.Inv) (hst : coreStep s = .next t) : t.Inv := by
  obtain ⟨-, rfl⟩ | ⟨hp, rfl⟩ | ⟨hp, rfl⟩ | ⟨hp, hd⟩ := coreStep_next_cases hst
  · exact h
  · exact buildStep_inv h hp
  · exact encStep_inv h hp
  · exact decStep_inv h hp hd

theorem resetCore_inv {s : State} (h : 8 ≤ s.lenW) : s.resetCore.Inv := by
  have := maxLen_mono h
  constructor <;> simp_all [rom_wf]

/-- The invariants say nothing of what the host holds. -/
theorem State.Inv.of_host {s : State} (h : s.Inv) (inp : List Byte) (r : Bool) (hs : List HostEvent) (rst) : State.Inv { s with inp := inp, outReady := r, host := hs, rst := rst } := by
  obtain ⟨a,b,c,d,e,f,g,i,j,k,l,m,n,o⟩ := h
  exact ⟨a,b,c,d,e,f,g,i,j,k,l,m,n,o⟩

theorem hostSide_lenW (s : State) (e) : (s.hostSide e).lenW = s.lenW := by cases e <;> rfl

theorem resetStep_lenW (s : State) : (resetStep s).lenW = s.lenW := by
  unfold resetStep; split
  · rfl
  · simp [hostSide_lenW]

theorem resetStep_inv {s : State} (h : 8 ≤ s.lenW) : (resetStep s).Inv := by
  unfold resetStep; split
  · exact resetCore_inv h
  · apply resetCore_inv; rw [hostSide_lenW]; exact h

end Sys2Proof.Machine
end

