-- ==== Sys2Proof/Laws/PerInstr.lean ====
section
/-! SUPPORT. What holds of every command as syntax, one lemma per constructor: the fields of its word are its own and pass every check of 30_encoding.md R70, R73, R74. -/

namespace Sys2Proof.Laws.FieldsLegal

/-- The fields cut out of the command's word are the ones the table of R71 gives, and they are well formed. -/
def Statement (i : Instr) : Prop := fieldsOf (encode i) = i.fields ∧ i.wellFormed = true

theorem clr : Statement .clr := ⟨fieldsOf_encode _, rfl⟩
theorem loadbZbase32 : Statement .loadbZbase32 := ⟨fieldsOf_encode _, rfl⟩
theorem loadbRfc4648 : Statement .loadbRfc4648 := ⟨fieldsOf_encode _, rfl⟩
theorem loadbBech32 : Statement .loadbBech32 := ⟨fieldsOf_encode _, rfl⟩
theorem buildNormal : Statement .buildNormal := ⟨fieldsOf_encode _, rfl⟩
theorem buildInverted : Statement .buildInverted := ⟨fieldsOf_encode _, rfl⟩
theorem enclen : Statement .enclen := ⟨fieldsOf_encode _, rfl⟩
theorem declen : Statement .declen := ⟨fieldsOf_encode _, rfl⟩
theorem encode : Statement .encode := ⟨fieldsOf_encode _, rfl⟩
theorem decode : Statement .decode := ⟨fieldsOf_encode _, rfl⟩

end Sys2Proof.Laws.FieldsLegal
end

