-- ==== Sys2Proof/Laws/Ports.lean ====
section
/-! SUPPORT. What the port signals are, said once by phase (10_state.md R40, 20_memory.md R65). -/

namespace Sys2Proof.Machine

theorem State.inReady_iff (s : State) :
    s.inReady = true ↔ s.busy = true ∧ s.idx < s.len ∧ (s.outValid = false ∨ s.outReady = true) := by
  simp [State.inReady, and_assoc]

theorem State.outValid_iff (s : State) : s.outValid = true ↔ s.offered ≠ [] := by simp [State.outValid]

/-- With a ready sink the items offered are those the step puts out. -/
theorem State.offered_of_ready {s t : State} (hr : s.outReady = true) (h : coreStep s = .next t) :
    s.offered = t.out.drop s.out.length := by
  have hs : { s with outReady := true } = s := by rw [← hr]
  simp only [State.offered, hs, h]

/-- The readiness of the sink does not change what is offered. -/
theorem State.offered_sink (s : State) (r : Bool) : State.offered { s with outReady := r } = s.offered := rfl

/-- A byte step offers its symbols (R132, R133). -/
theorem State.offered_encodeByte {s : State} {b : Byte} {rest : List Byte} (hp : s.ph = .enc) (hi : s.idx < s.len)
    (hin : s.inp = b :: rest) :
    s.offered = symbolsOf s.alpha (encPack s.alpha.order s.acc.toNat s.pend.toNat b).values := by
  simp [State.offered, coreStep, hp, encStep, hi, hin, encodeByte, State.sinkTakes, State.putOut, State.consume]

/-- The finish step offers its short symbol, if there is one (R135). -/
theorem State.offered_encodeFinish {s : State} (hp : s.ph = .enc) (hi : s.idx = s.len) :
    s.offered = symbolsOf s.alpha (encLast s.alpha.order s.acc.toNat s.pend.toNat) := by
  simp [State.offered, coreStep, hp, encStep, hi, encodeFinish, State.sinkTakes, State.putOut, State.complete, State.setDone]

/-- A symbol step with a value offers its byte, if there is one (R153, R154). -/
theorem State.offered_decodeValue {s : State} {c : Byte} {rest : List Byte} (hp : s.ph = .dec) (hi : s.idx < s.len)
    (hin : s.inp = c :: rest) (hs : decRead s.alpha c ≠ sentinel) (hv : (decRead s.alpha c).toNat < 32) :
    s.offered = (decUnpack s.alpha.order s.acc.toNat s.pend.toNat (decRead s.alpha c).toNat).bytes := by
  simp [State.offered, coreStep, hp, decStep, hi, hin, decodeSymbol, hs, hv, decodeValue, State.sinkTakes, State.putOut,
    State.consume]

/-- A symbol step that faults offers nothing (R152, R190). -/
theorem State.offered_decodeInvalid {s : State} {c : Byte} {rest : List Byte} (hp : s.ph = .dec) (hi : s.idx < s.len)
    (hin : s.inp = c :: rest) (hs : decRead s.alpha c = sentinel) : s.offered = [] := by
  simp [State.offered, coreStep, hp, decStep, hi, hin, decodeSymbol, hs, decodeInvalid]

end Sys2Proof.Machine
end

