-- ==== Sys2Proof/Laws/Streams.lean ====
section
/-! SUPPORT. A whole stream of items through the packer of ENCODE and the unpacker of DECODE, as numbers (30_encoding.md R82, R83, R84). -/

namespace Sys2Proof.Machine

/-! ### Numbers from digits -/

theorem littleEndian_append (B : Nat) (xs ys : List Nat) :
    littleEndian B (xs ++ ys) = littleEndian B xs + B ^ xs.length * littleEndian B ys := by
  induction xs with
  | nil => simp [littleEndian]
  | cons x xs ih => simp only [List.cons_append, littleEndian, ih, List.length_cons]; ring

theorem bigEndian_nil (B : Nat) : bigEndian B [] = 0 := rfl

theorem bigEndian_cons (B d : Nat) (ds : List Nat) :
    bigEndian B (d :: ds) = d * B ^ ds.length + bigEndian B ds := by
  simp only [bigEndian, List.reverse_cons, littleEndian_append, List.length_reverse, littleEndian]
  ring

theorem littleEndian_lt (B : Nat) (ds : List Nat) (h : ∀ d ∈ ds, d < B) : littleEndian B ds < B ^ ds.length := by
  induction ds with
  | nil => simp [littleEndian]
  | cons d ds ih =>
    have h1 := h d (by simp)
    have h2 := ih fun x hx => h x (by simp [hx])
    rw [littleEndian, List.length_cons, Nat.pow_succ]
    calc d + B * littleEndian B ds < B + B * littleEndian B ds := by omega
      _ = B * (littleEndian B ds + 1) := by ring
      _ ≤ B * B ^ ds.length := Nat.mul_le_mul_left _ h2
      _ = B ^ ds.length * B := Nat.mul_comm _ _

theorem bigEndian_lt (B : Nat) (ds : List Nat) (h : ∀ d ∈ ds, d < B) : bigEndian B ds < B ^ ds.length := by
  have := littleEndian_lt B ds.reverse (by simpa using h)
  simpa [bigEndian] using this

/-! ### Cutting a number in two -/

/-- The digit at k of a number whose part above position t is shifted in by more than a digit. -/
theorem shift_add_high {w : Nat} (x y t k : Nat) (h : k + w ≤ t) :
    BitVec.ofNat w ((x + y * 2 ^ t) >>> k) = BitVec.ofNat w (x >>> k) := by
  apply BitVec.eq_of_toNat_eq
  rw [BitVec.toNat_ofNat, BitVec.toNat_ofNat, Nat.shiftRight_eq_div_pow, Nat.shiftRight_eq_div_pow]
  obtain ⟨c, rfl⟩ := Nat.exists_eq_add_of_le h
  rw [show y * 2 ^ (k + w + c) = 2 ^ k * (2 ^ w * (y * 2 ^ c)) by rw [Nat.pow_add, Nat.pow_add]; ring,
    Nat.add_mul_div_left _ _ (Nat.two_pow_pos k), Nat.add_mul_mod_self_left]

/-- Shifting a sum right by the position its high part stands at, or less. -/
theorem shift_split (x y t k : Nat) (h : k ≤ t) : (x + y * 2 ^ t) >>> k = x >>> k + y * 2 ^ (t - k) := by
  obtain ⟨c, rfl⟩ := Nat.exists_eq_add_of_le h
  rw [Nat.shiftRight_eq_div_pow, Nat.shiftRight_eq_div_pow,
    show y * 2 ^ (k + c) = 2 ^ k * (y * 2 ^ (k + c - k)) by rw [Nat.add_sub_cancel_left, Nat.pow_add]; ring,
    Nat.add_mul_div_left _ _ (Nat.two_pow_pos k)]

theorem or_eq_add_high (a b p : Nat) (h : a < 2 ^ p) : a ||| b <<< p = a + b * 2 ^ p := by
  rw [Nat.or_comm, ← Nat.shiftLeft_add_eq_or_of_lt h, Nat.shiftLeft_eq, Nat.add_comm]

theorem or_eq_add_low (a b p : Nat) (h : b < 2 ^ p) : a <<< p ||| b = a * 2 ^ p + b := by
  rw [← Nat.shiftLeft_add_eq_or_of_lt h, Nat.shiftLeft_eq]

/-! ### ENCODE: a list of bytes through the packer -/

/-- The byte steps of ENCODE on a list of bytes, one after the other. -/
def encAll (o : BitOrder) (acc pend : Nat) : List Byte → Drained
  | [] => { values := [], acc := acc, pend := pend }
  | b :: bs =>
    let d := encPack o acc pend b
    let r := encAll o d.acc d.pend bs
    { r with values := d.values ++ r.values }

theorem encAll_pend (o : BitOrder) (acc pend : Nat) (bs : List Byte) (h : pend < 5) :
    (encAll o acc pend bs).pend = (pend + 8 * bs.length) % 5 := by
  induction bs generalizing acc pend with
  | nil => simp only [encAll, List.length_nil]; omega
  | cons b bs ih =>
    simp only [encAll, List.length_cons]
    rw [ih _ _ (by rw [encPack_pend]; omega), encPack_pend]; omega

theorem encAll_acc_lt (o : BitOrder) (acc pend : Nat) (bs : List Byte) (h : acc < 2 ^ pend) :
    (encAll o acc pend bs).acc < 2 ^ (encAll o acc pend bs).pend := by
  induction bs generalizing acc pend with
  | nil => exact h
  | cons b bs ih => exact ih _ _ (by rw [encPack_pend]; exact encPack_acc_lt o acc pend b h)

/-- Inverted order: the values are the digits to base 32 of the number whose low bits are the pending ones and
whose next bits are the bytes, low byte first. -/
theorem encAll_inverted (acc pend : Nat) (bs : List Byte) (hp : pend < 5) (ha : acc < 2 ^ pend) :
    encAll .inverted acc pend bs =
      { values := (List.range ((pend + 8 * bs.length) / 5)).map (fun k =>
          mask5 ((acc + littleEndian 256 (bs.map BitVec.toNat) * 2 ^ pend) >>> (5 * k)))
        acc := (acc + littleEndian 256 (bs.map BitVec.toNat) * 2 ^ pend) >>> (5 * ((pend + 8 * bs.length) / 5))
        pend := (pend + 8 * bs.length) % 5 } := by
  induction bs generalizing acc pend with
  | nil => simp [encAll, littleEndian, show pend / 5 = 0 by omega, show pend % 5 = pend by omega]
  | cons b bs ih =>
    have hlt := encPack_acc_lt .inverted acc pend b ha
    simp only [encPack_inverted] at hlt
    simp only [encAll, encPack_inverted, or_eq_add_high _ _ _ ha] at hlt ⊢
    rw [ih _ _ (by omega) hlt]
    generalize hL : littleEndian 256 (bs.map BitVec.toNat) = L
    have hN : acc + littleEndian 256 ((b :: bs).map BitVec.toNat) * 2 ^ pend =
        (acc + b.toNat * 2 ^ pend) + L * 2 ^ (pend + 8) := by
      rw [List.map_cons, littleEndian, hL, Nat.pow_add]; ring
    have hcut : ∀ k, ((acc + b.toNat * 2 ^ pend) >>> (5 * ((pend + 8) / 5)) + L * 2 ^ ((pend + 8) % 5)) >>> (5 * k) =
        ((acc + b.toNat * 2 ^ pend) + L * 2 ^ (pend + 8)) >>> (5 * ((pend + 8) / 5 + k)) := by
      intro k
      rw [Nat.mul_add, Nat.shiftRight_add _ (5 * ((pend + 8) / 5)), shift_split _ _ (pend + 8) _ (by omega),
        show pend + 8 - 5 * ((pend + 8) / 5) = (pend + 8) % 5 by omega]
    have hq : (pend + 8 * (b :: bs).length) / 5 = (pend + 8) / 5 + ((pend + 8) % 5 + 8 * bs.length) / 5 := by
      rw [List.length_cons]; omega
    rw [hN, hq]
    simp only [hcut, List.range_add, List.map_append, List.map_map, Drained.mk.injEq, true_and]
    refine ⟨?_, ?_⟩
    · congr 1
      refine List.map_congr_left fun j hj => ?_
      have := List.mem_range.1 hj
      exact (shift_add_high _ _ _ _ (by omega)).symm
    · rw [List.length_cons]; omega

/-- Normal order: the values are the digits to base 32, from the top, of the number whose high bits are the pending
ones and whose next bits are the bytes, first byte highest. -/
theorem encAll_normal (acc pend : Nat) (bs : List Byte) (hp : pend < 5) (ha : acc < 2 ^ pend) :
    encAll .normal acc pend bs =
      { values := (List.range ((pend + 8 * bs.length) / 5)).map (fun k =>
          mask5 ((acc * 256 ^ bs.length + bigEndian 256 (bs.map BitVec.toNat)) >>> (pend + 8 * bs.length - 5 * (k + 1))))
        acc := (acc * 256 ^ bs.length + bigEndian 256 (bs.map BitVec.toNat)) % 2 ^ ((pend + 8 * bs.length) % 5)
        pend := (pend + 8 * bs.length) % 5 } := by
  induction bs generalizing acc pend with
  | nil => simp [encAll, bigEndian_nil, show pend / 5 = 0 by omega, show pend % 5 = pend by omega, Nat.mod_eq_of_lt ha]
  | cons b bs ih =>
    have h8 : ∀ n, 256 ^ n = 2 ^ (8 * n) := fun n => by rw [Nat.pow_mul]
    simp only [encAll, encPack_normal, or_eq_add_low _ _ _ b.isLt]
    rw [ih _ _ (by omega) (Nat.mod_lt _ (Nat.two_pow_pos _))]
    generalize hL : bigEndian 256 (bs.map BitVec.toNat) = L
    have hLlt : L < 2 ^ (8 * bs.length) := by
      rw [← hL, ← h8]
      simpa using bigEndian_lt 256 (bs.map BitVec.toNat) (by simp only [List.mem_map]; rintro _ ⟨x, -, rfl⟩; exact x.isLt)
    generalize hA : acc * 2 ^ 8 + b.toNat = A
    have hN : acc * 256 ^ (b :: bs).length + bigEndian 256 ((b :: bs).map BitVec.toNat) = A * 256 ^ bs.length + L := by
      rw [List.map_cons, bigEndian_cons, hL, List.length_cons, List.length_map, ← hA]; ring
    rw [hN, h8]
    have hsum : A * 2 ^ (8 * bs.length) + L =
        (A % 2 ^ ((pend + 8) % 5) * 2 ^ (8 * bs.length) + L) + A / 2 ^ ((pend + 8) % 5) * 2 ^ ((pend + 8) % 5 + 8 * bs.length) := by
      have := Nat.mod_add_div A (2 ^ ((pend + 8) % 5))
      rw [Nat.pow_add]
      nlinarith [this]
    have hq : (pend + 8 * (b :: bs).length) / 5 = (pend + 8) / 5 + ((pend + 8) % 5 + 8 * bs.length) / 5 := by
      rw [List.length_cons]; omega
    rw [hq]
    simp only [List.range_add, List.map_append, List.map_map, Drained.mk.injEq]
    refine ⟨?_, ?_, by rw [List.length_cons]; omega⟩
    · congr 1
      · refine List.map_congr_left fun j hj => ?_
        have := List.mem_range.1 hj
        rw [show pend + 8 * (b :: bs).length - 5 * (j + 1) = 8 * bs.length + (pend + 8 - 5 * (j + 1)) by rw [List.length_cons]; omega,
          Nat.shiftRight_add, Nat.shiftRight_eq_div_pow (_ + L), Nat.mul_comm A, Nat.mul_add_div (Nat.two_pow_pos _),
          Nat.div_eq_of_lt hLlt]
        rfl
      · refine List.map_congr_left fun j hj => ?_
        have := List.mem_range.1 hj
        simp only [Function.comp]
        rw [hsum, show pend + 8 * (b :: bs).length - 5 * ((pend + 8) / 5 + j + 1) = (pend + 8) % 5 + 8 * bs.length - 5 * (j + 1) by
          rw [List.length_cons]; omega]
        exact (shift_add_high _ _ _ _ (by omega)).symm
    · rw [show (pend + 8 * (b :: bs).length) % 5 = ((pend + 8) % 5 + 8 * bs.length) % 5 by rw [List.length_cons]; omega, hsum]
      obtain ⟨c, hc⟩ := Nat.exists_eq_add_of_le (Nat.mod_le ((pend + 8) % 5 + 8 * bs.length) 5)
      rw [show A / 2 ^ ((pend + 8) % 5) * 2 ^ ((pend + 8) % 5 + 8 * bs.length) =
        2 ^ (((pend + 8) % 5 + 8 * bs.length) % 5) * (A / 2 ^ ((pend + 8) % 5) * 2 ^ c) by
          conv_lhs => rw [hc, Nat.pow_add]
          ring]
      rw [Nat.add_mul_mod_self_left]

/-! ### DECODE: a list of values through the unpacker -/

/-- The symbol steps of DECODE on a list of values, one after the other. -/
def decAll (o : BitOrder) (acc pend : Nat) : List Val5 → Unpacked
  | [] => { bytes := [], acc := acc, pend := pend }
  | v :: vs =>
    let u := decUnpack o acc pend v.toNat
    let r := decAll o u.acc u.pend vs
    { r with bytes := u.bytes ++ r.bytes }

theorem decUnpack_inverted (acc pend v : Nat) (hp : pend < 8) (ha : acc < 2 ^ pend) :
    decUnpack .inverted acc pend v =
      { bytes := (List.range ((pend + 5) / 8)).map (fun k => mask8 ((acc + v * 2 ^ pend) >>> (8 * k)))
        acc := (acc + v * 2 ^ pend) >>> (8 * ((pend + 5) / 8))
        pend := (pend + 5) % 8 } := by
  unfold decUnpack decMerge
  simp only [or_eq_add_high _ _ _ ha]
  split
  · rw [show (pend + 5) / 8 = 1 by omega, show pend + 5 - 8 = (pend + 5) % 8 by omega]; simp [List.range_succ]
  · rw [show (pend + 5) / 8 = 0 by omega, show (pend + 5) % 8 = pend + 5 by omega]; simp

theorem decUnpack_normal (acc pend v : Nat) (hp : pend < 8) (ha : acc < 2 ^ pend) (hv : v < 32) :
    decUnpack .normal acc pend v =
      { bytes := (List.range ((pend + 5) / 8)).map (fun k => mask8 ((acc * 32 + v) >>> (pend + 5 - 8 * (k + 1))))
        acc := (acc * 32 + v) % 2 ^ ((pend + 5) % 8)
        pend := (pend + 5) % 8 } := by
  have hm := decMerge_lt .normal acc pend v ha hv
  unfold decUnpack
  simp only [decMerge, or_eq_add_low _ _ _ (show v < 2 ^ 5 from hv), lowBits_eq] at hm ⊢
  split
  · rw [show (pend + 5) / 8 = 1 by omega, show pend + 5 - 8 = (pend + 5) % 8 by omega]
    simp [List.range_succ, show pend + 5 - 8 = (pend + 5) % 8 by omega]
  · rw [show (pend + 5) / 8 = 0 by omega, show (pend + 5) % 8 = pend + 5 by omega]
    simp only [List.range_zero, List.map_nil, Unpacked.mk.injEq, true_and, and_true]
    exact (Nat.mod_eq_of_lt hm).symm

/-- Inverted order: the bytes are the digits to base 256 of the number whose low bits are the pending ones and whose
next bits are the values, low value first. -/
theorem decAll_inverted (acc pend : Nat) (vs : List Val5) (hp : pend < 8) (ha : acc < 2 ^ pend) :
    decAll .inverted acc pend vs =
      { bytes := (List.range ((pend + 5 * vs.length) / 8)).map (fun k =>
          mask8 ((acc + littleEndian 32 (vs.map BitVec.toNat) * 2 ^ pend) >>> (8 * k)))
        acc := (acc + littleEndian 32 (vs.map BitVec.toNat) * 2 ^ pend) >>> (8 * ((pend + 5 * vs.length) / 8))
        pend := (pend + 5 * vs.length) % 8 } := by
  induction vs generalizing acc pend with
  | nil => simp [decAll, littleEndian, show pend / 8 = 0 by omega, show pend % 8 = pend by omega]
  | cons v vs ih =>
    have hlt := decUnpack_acc_lt .inverted acc pend v.toNat ha v.isLt
    rw [decUnpack_inverted _ _ _ hp ha] at hlt
    simp only [decAll, decUnpack_inverted _ _ _ hp ha] at hlt ⊢
    rw [ih _ _ (by omega) hlt]
    generalize hL : littleEndian 32 (vs.map BitVec.toNat) = L
    have hN : acc + littleEndian 32 ((v :: vs).map BitVec.toNat) * 2 ^ pend =
        (acc + v.toNat * 2 ^ pend) + L * 2 ^ (pend + 5) := by
      rw [List.map_cons, littleEndian, hL, Nat.pow_add]; ring
    have hcut : ∀ k, ((acc + v.toNat * 2 ^ pend) >>> (8 * ((pend + 5) / 8)) + L * 2 ^ ((pend + 5) % 8)) >>> (8 * k) =
        ((acc + v.toNat * 2 ^ pend) + L * 2 ^ (pend + 5)) >>> (8 * ((pend + 5) / 8 + k)) := by
      intro k
      rw [Nat.mul_add, Nat.shiftRight_add _ (8 * ((pend + 5) / 8)), shift_split _ _ (pend + 5) _ (by omega),
        show pend + 5 - 8 * ((pend + 5) / 8) = (pend + 5) % 8 by omega]
    have hq : (pend + 5 * (v :: vs).length) / 8 = (pend + 5) / 8 + ((pend + 5) % 8 + 5 * vs.length) / 8 := by
      rw [List.length_cons]; omega
    rw [hN, hq]
    simp only [hcut, List.range_add, List.map_append, List.map_map, Unpacked.mk.injEq, true_and]
    refine ⟨?_, ?_⟩
    · congr 1
      refine List.map_congr_left fun j hj => ?_
      have := List.mem_range.1 hj
      exact (shift_add_high _ _ _ _ (by omega)).symm
    · rw [List.length_cons]; omega

/-- Normal order: the bytes are the digits to base 256, from the top, of the number whose high bits are the pending
ones and whose next bits are the values, first value highest. -/
theorem decAll_normal (acc pend : Nat) (vs : List Val5) (hp : pend < 8) (ha : acc < 2 ^ pend) :
    decAll .normal acc pend vs =
      { bytes := (List.range ((pend + 5 * vs.length) / 8)).map (fun k =>
          mask8 ((acc * 32 ^ vs.length + bigEndian 32 (vs.map BitVec.toNat)) >>> (pend + 5 * vs.length - 8 * (k + 1))))
        acc := (acc * 32 ^ vs.length + bigEndian 32 (vs.map BitVec.toNat)) % 2 ^ ((pend + 5 * vs.length) % 8)
        pend := (pend + 5 * vs.length) % 8 } := by
  induction vs generalizing acc pend with
  | nil => simp [decAll, bigEndian_nil, show pend / 8 = 0 by omega, show pend % 8 = pend by omega, Nat.mod_eq_of_lt ha]
  | cons v vs ih =>
    have h5 : ∀ n, 32 ^ n = 2 ^ (5 * n) := fun n => by rw [Nat.pow_mul]
    simp only [decAll, decUnpack_normal _ _ _ hp ha v.isLt]
    rw [ih _ _ (by omega) (Nat.mod_lt _ (Nat.two_pow_pos _))]
    generalize hL : bigEndian 32 (vs.map BitVec.toNat) = L
    have hLlt : L < 2 ^ (5 * vs.length) := by
      rw [← hL, ← h5]
      simpa using bigEndian_lt 32 (vs.map BitVec.toNat) (by simp only [List.mem_map]; rintro _ ⟨x, -, rfl⟩; exact x.isLt)
    generalize hA : acc * 32 + v.toNat = A
    have hN : acc * 32 ^ (v :: vs).length + bigEndian 32 ((v :: vs).map BitVec.toNat) = A * 32 ^ vs.length + L := by
      rw [List.map_cons, bigEndian_cons, hL, List.length_cons, List.length_map, ← hA]; ring
    rw [hN, h5]
    have hsum : A * 2 ^ (5 * vs.length) + L =
        (A % 2 ^ ((pend + 5) % 8) * 2 ^ (5 * vs.length) + L) + A / 2 ^ ((pend + 5) % 8) * 2 ^ ((pend + 5) % 8 + 5 * vs.length) := by
      have := Nat.mod_add_div A (2 ^ ((pend + 5) % 8))
      rw [Nat.pow_add]
      nlinarith [this]
    have hq : (pend + 5 * (v :: vs).length) / 8 = (pend + 5) / 8 + ((pend + 5) % 8 + 5 * vs.length) / 8 := by
      rw [List.length_cons]; omega
    rw [hq]
    simp only [List.range_add, List.map_append, List.map_map, Unpacked.mk.injEq]
    refine ⟨?_, ?_, by rw [List.length_cons]; omega⟩
    · congr 1
      · refine List.map_congr_left fun j hj => ?_
        have := List.mem_range.1 hj
        rw [show pend + 5 * (v :: vs).length - 8 * (j + 1) = 5 * vs.length + (pend + 5 - 8 * (j + 1)) by rw [List.length_cons]; omega,
          Nat.shiftRight_add, Nat.shiftRight_eq_div_pow (_ + L), Nat.mul_comm A, Nat.mul_add_div (Nat.two_pow_pos _),
          Nat.div_eq_of_lt hLlt]
        rfl
      · refine List.map_congr_left fun j hj => ?_
        have := List.mem_range.1 hj
        simp only [Function.comp]
        rw [hsum, show pend + 5 * (v :: vs).length - 8 * ((pend + 5) / 8 + j + 1) = (pend + 5) % 8 + 5 * vs.length - 8 * (j + 1) by
          rw [List.length_cons]; omega]
        exact (shift_add_high _ _ _ _ (by omega)).symm
    · rw [show (pend + 5 * (v :: vs).length) % 8 = ((pend + 5) % 8 + 5 * vs.length) % 8 by rw [List.length_cons]; omega, hsum]
      obtain ⟨c, hc⟩ := Nat.exists_eq_add_of_le (Nat.mod_le ((pend + 5) % 8 + 5 * vs.length) 8)
      rw [show A / 2 ^ ((pend + 5) % 8) * 2 ^ ((pend + 5) % 8 + 5 * vs.length) =
        2 ^ (((pend + 5) % 8 + 5 * vs.length) % 8) * (A / 2 ^ ((pend + 5) % 8) * 2 ^ c) by
          conv_lhs => rw [hc, Nat.pow_add]
          ring]
      rw [Nat.add_mul_mod_self_left]

end Sys2Proof.Machine
end

