-- ==== Sys2Proof/Laws/Runs.lean ====
section
/-! SUPPORT. Runs of several steps: how they compose, and what the byte steps of ENCODE, the symbol steps of DECODE and the fill steps of BUILD do to a list of items. -/

namespace Sys2Proof.Machine

theorem runsTo_zero (s : State) : s.runsTo 0 s := rfl

theorem runsTo_succ {s t u : State} {k : Nat} (h : step s = .next t) (hk : t.runsTo k u) : s.runsTo (k + 1) u := by
  have h' : Sys2Proof.core.step s = .next t := h
  unfold State.runsTo at hk ⊢
  simp only [Host.Core.run, h']
  exact hk

theorem runsTo_succ_inv {s u : State} {k : Nat} (h : s.runsTo (k + 1) u) : ∃ t, step s = .next t ∧ t.runsTo k u := by
  unfold State.runsTo at h
  simp only [Host.Core.run] at h
  split at h
  · exact ⟨_, ‹_›, h⟩
  · simp at h
  · simp at h

theorem runsTo_add {s t u : State} {j k : Nat} (h : s.runsTo j t) (hk : t.runsTo k u) : s.runsTo (j + k) u := by
  induction j generalizing s with
  | zero =>
    have : s = t := by injection h
    rw [this, Nat.zero_add]; exact hk
  | succ j ih =>
    obtain ⟨s', hs, hr⟩ := runsTo_succ_inv h
    rw [Nat.add_right_comm]
    exact runsTo_succ hs (ih hr)

/-- One step of the CORE's own as a run. -/
theorem runsTo_core {s t : State} (hc : s.coreRuns) (h : coreStep s = .next t) : s.runsTo 1 t :=
  runsTo_succ (by rw [step_of_core hc.1 hc.2]; exact h) (runsTo_zero t)

/-- An idle CORE to which no event comes stays as it is. -/
theorem runsTo_idle {s : State} (hc : s.coreRuns) (hp : s.ph = .idle) (k : Nat) : s.runsTo k s := by
  induction k with
  | zero => exact runsTo_zero s
  | succ k ih => exact runsTo_succ (by rw [step_of_core hc.1 hc.2]; simp [coreStep, hp]) ih

/-- The acceptance of a command the host is about to write. -/
theorem step_readyFor {s : State} {i : Instr} {items rest : List Byte} (h : s.readyFor i items rest) :
    step s = exec i { s with host := [] } := by
  have hb : State.busy { s with host := [] } = false := not_busy_of_ph h.idle
  have hd : decode (encode i) = .command i := by cases i <;> rfl
  rw [step_of_event h.released h.script]
  simp only [hostStep, writeReg, hb, acceptCommand, BitVec.ofNat_toNat, BitVec.setWidth_eq, hd]
  rfl

/-- The byte steps of ENCODE on a list of items. -/
theorem enc_runsTo (bytes : List Byte) {s : State} {rest : List Byte} (hc : s.coreRuns) (hp : s.ph = .enc)
    (hr : s.outReady = true) (hin : s.inp = bytes ++ rest) (hi : s.idx + bytes.length ≤ s.len)
    (hpd : s.pend.toNat < 5) (ha : s.acc.toNat < 2 ^ s.pend.toNat) :
    s.runsTo bytes.length { s with
      acc := toAcc (encAll s.alpha.order s.acc.toNat s.pend.toNat bytes).acc
      pend := toPend (encAll s.alpha.order s.acc.toNat s.pend.toNat bytes).pend
      out := s.out ++ symbolsOf s.alpha (encAll s.alpha.order s.acc.toNat s.pend.toNat bytes).values
      outcnt := s.outcnt + (encAll s.alpha.order s.acc.toNat s.pend.toNat bytes).values.length
      inp := rest
      idx := s.idx + bytes.length } := by
  induction bytes generalizing s with
  | nil =>
    simp only [List.length_nil, encAll, toAcc, toPend, BitVec.ofNat_toNat, BitVec.setWidth_eq, symbolsOf, List.map_nil,
      List.append_nil, Nat.add_zero]
    simp only [List.nil_append] at hin
    rw [← hin]; exact runsTo_zero s
  | cons b bs ih =>
    have hlt := encPack_acc_lt s.alpha.order _ _ b ha
    have hpe := encPack_pend s.alpha.order s.acc.toNat s.pend.toNat b
    have hpp : (toPend (encPack s.alpha.order s.acc.toNat s.pend.toNat b).pend).toNat =
        (encPack s.alpha.order s.acc.toNat s.pend.toNat b).pend := by
      rw [hpe, toPend, BitVec.toNat_ofNat]; omega
    have hap : (toAcc (encPack s.alpha.order s.acc.toNat s.pend.toNat b).acc).toNat =
        (encPack s.alpha.order s.acc.toNat s.pend.toNat b).acc := by
      rw [toAcc, BitVec.toNat_ofNat]
      refine Nat.mod_eq_of_lt (Nat.lt_of_lt_of_le hlt (Nat.pow_le_pow_right (by omega) (by omega)))
    rw [List.length_cons] at hi
    let s' : State := { s with
      acc := toAcc (encPack s.alpha.order s.acc.toNat s.pend.toNat b).acc
      pend := toPend (encPack s.alpha.order s.acc.toNat s.pend.toNat b).pend
      out := s.out ++ symbolsOf s.alpha (encPack s.alpha.order s.acc.toNat s.pend.toNat b).values
      outcnt := s.outcnt + (encPack s.alpha.order s.acc.toNat s.pend.toNat b).values.length
      inp := bs ++ rest
      idx := s.idx + 1 }
    have hs : step s = .next s' := by
      rw [step_of_core hc.1 hc.2]
      simp [coreStep, hp, encStep, hin, show s.idx < s.len by omega, encodeByte, hr, State.putOut, State.consume, s']
    have h' := ih (s := s') hc hp hr rfl (by show s.idx + 1 + bs.length ≤ s.len; omega)
      (by show (toPend _).toNat < 5; rw [hpp, hpe]; omega)
      (by show (toAcc _).toNat < 2 ^ (toPend _).toNat; rw [hpp, hap, hpe]; exact hlt)
    have := runsTo_succ hs h'
    simp only [s', hap, hpp, List.append_assoc] at this
    simp only [encAll, symbolsOf_append, List.length_append, List.length_cons]
    rw [show s.idx + (bs.length + 1) = s.idx + 1 + bs.length by omega, ← Nat.add_assoc s.outcnt]
    exact this

/-- The symbol steps of DECODE on a list of symbols of the alphabet. -/
theorem dec_runsTo (syms : List Byte) {s : State} {rest : List Byte} (hw : s.alpha.Wf) (hc : s.coreRuns)
    (hp : s.ph = .dec) (hr : s.outReady = true) (hin : s.inp = syms ++ rest) (hi : s.idx + syms.length ≤ s.len)
    (hpd : s.pend.toNat < 8) (ha : s.acc.toNat < 2 ^ s.pend.toNat) (hv : ∀ c ∈ syms, decRead s.alpha c ≠ sentinel) :
    s.runsTo syms.length { s with
      acc := toAcc (decAll s.alpha.order s.acc.toNat s.pend.toNat (syms.map (valueOf s.alpha))).acc
      pend := toPend (decAll s.alpha.order s.acc.toNat s.pend.toNat (syms.map (valueOf s.alpha))).pend
      out := s.out ++ (decAll s.alpha.order s.acc.toNat s.pend.toNat (syms.map (valueOf s.alpha))).bytes
      outcnt := s.outcnt + (decAll s.alpha.order s.acc.toNat s.pend.toNat (syms.map (valueOf s.alpha))).bytes.length
      inp := rest
      idx := s.idx + syms.length } := by
  induction syms generalizing s with
  | nil =>
    simp only [List.length_nil, List.map_nil, decAll, toAcc, toPend, BitVec.ofNat_toNat, BitVec.setWidth_eq,
      List.append_nil, Nat.add_zero]
    simp only [List.nil_append] at hin
    rw [← hin]; exact runsTo_zero s
  | cons c cs ih =>
    have hns := hv c (by simp)
    have hlt := hw.decRead_lt hns
    have hval : (valueOf s.alpha c).toNat = (decRead s.alpha c).toNat := by
      rw [valueOf, mask5, BitVec.toNat_ofNat]; exact Nat.mod_eq_of_lt hlt
    generalize hg : decUnpack s.alpha.order s.acc.toNat s.pend.toNat (decRead s.alpha c).toNat = u
    have hal : u.acc < 2 ^ u.pend := hg ▸ decUnpack_acc_lt s.alpha.order _ _ _ ha hlt
    have hpe : u.pend = (s.pend.toNat + 5) % 8 := hg ▸ decUnpack_pend s.alpha.order s.acc.toNat s.pend.toNat _ hpd
    have hpp : (toPend u.pend).toNat = u.pend := by rw [hpe, toPend, BitVec.toNat_ofNat]; omega
    have hap : (toAcc u.acc).toNat = u.acc := by
      rw [toAcc, BitVec.toNat_ofNat]
      refine Nat.mod_eq_of_lt (Nat.lt_of_lt_of_le hal (Nat.pow_le_pow_right (by omega) (by omega)))
    rw [List.length_cons] at hi
    let s' : State := { s with
      acc := toAcc u.acc, pend := toPend u.pend, out := s.out ++ u.bytes, outcnt := s.outcnt + u.bytes.length
      inp := cs ++ rest, idx := s.idx + 1 }
    have hs : step s = .next s' := by
      rw [step_of_core hc.1 hc.2]
      simp [coreStep, hp, decStep, hin, show s.idx < s.len by omega, decodeSymbol, hns, hlt, decodeValue, hg, hr,
        State.putOut, State.consume, s']
    have h' := ih (s := s') hw hc hp hr rfl (by show s.idx + 1 + cs.length ≤ s.len; omega)
      (by show (toPend _).toNat < 8; rw [hpp, hpe]; omega)
      (by show (toAcc _).toNat < 2 ^ (toPend _).toNat; rw [hpp, hap]; exact hal) (fun x hx => hv x (by simp [hx]))
    have := runsTo_succ hs h'
    simp only [s', hap, hpp, List.append_assoc] at this
    simp only [List.map_cons, decAll, hval, hg, List.length_append, List.length_cons]
    rw [show s.idx + (cs.length + 1) = s.idx + 1 + cs.length by omega, ← Nat.add_assoc s.outcnt]
    exact this

/-- The staging buffer after a list of items is stored from position i on. -/
def stageAll (t : Table 32) (i : Nat) : List Byte → Table 32
  | [] => t
  | b :: bs => stageAll (t.set i b) (i + 1) bs

/-- The fill steps of BUILD on a list of items. -/
theorem fill_runsTo (syms : List Byte) {s : State} {rest : List Byte} (hc : s.coreRuns) (hp : s.ph = .build)
    (hin : s.inp = syms ++ rest) (hi : s.idx + syms.length ≤ 32) :
    s.runsTo syms.length { s with stage := stageAll s.stage s.idx syms, inp := rest, idx := s.idx + syms.length } := by
  induction syms generalizing s with
  | nil =>
    simp only [List.nil_append] at hin
    simp only [stageAll, List.length_nil, Nat.add_zero, ← hin]
    exact runsTo_zero s
  | cons b bs ih =>
    rw [List.length_cons] at hi
    let s' : State := { s with stage := s.stage.set s.idx b, inp := bs ++ rest, idx := s.idx + 1 }
    have hs : step s = .next s' := by
      rw [step_of_core hc.1 hc.2]
      simp [coreStep, hp, buildStep, hin, show s.idx < 32 by omega, buildFill, State.consume, s']
    have := runsTo_succ hs (ih (s := s') hc hp rfl (by show s.idx + 1 + bs.length ≤ 32; omega))
    simp only [stageAll, List.length_cons]
    rw [show s.idx + (bs.length + 1) = s.idx + 1 + bs.length by omega]
    exact this

theorem stageAll_entries (syms : List Byte) (t : Table 32) (i : Nat) (h : i + syms.length ≤ 32) :
    (stageAll t i syms).entries = t.entries.take i ++ syms ++ t.entries.drop (i + syms.length) := by
  induction syms generalizing t i with
  | nil => simp [stageAll]
  | cons b bs ih =>
    rw [List.length_cons] at h
    rw [stageAll, ih _ _ (by omega)]
    have hl := t.length_entries
    have ht : (t.set i b).entries.take (i + 1) = t.entries.take i ++ [b] := by
      rw [Table.set, List.take_succ_eq_append_getElem (by simp; omega), List.take_set_of_le (Nat.le_refl i)]
      simp
    have hd : (t.set i b).entries.drop (i + 1 + bs.length) = t.entries.drop (i + (b :: bs).length) := by
      rw [Table.set, List.drop_set_of_lt (by omega), List.length_cons]; congr 1; omega
    rw [ht, hd]; simp

/-- 32 items fill the whole of STAGE. -/
theorem stageAll_full (syms : List Byte) (t : Table 32) (h : syms.length = 32) : (stageAll t 0 syms).entries = syms := by
  rw [stageAll_entries _ _ _ (by omega)]
  simp [h, List.drop_eq_nil_of_le]

end Sys2Proof.Machine
end

