-- ==== Sys2Proof/Laws/Whole.lean ====
section
/-! SUPPORT. The functions of Machine/WholeOp.lean: how they agree with the streams of Laws/Streams.lean, their lengths, the first offending item, digits of numbers. -/

namespace Sys2Proof.Machine

/-! ### The first offending item -/

theorem firstUnprintable_at {syms : List Byte} {i : Nat} (hi : i < syms.length) (hb : printable syms[i] = false)
   (hl : ∀ j, (hj : j < i) → printable (syms[j]'(by omega)) = true) : firstUnprintable syms = some syms[i] := by
  unfold firstUnprintable
  rw [List.find?_eq_some_iff_getElem]
  exact ⟨by simp [hb], i, hi, rfl, fun j hj => by simp [hl j hj]⟩

theorem firstRepeat_at {seen syms : List Byte} {j : Nat} (hj : j < syms.length)
   (hd : syms[j] ∈ seen ∨ ∃ i, ∃ h : i < j, syms[i]'(by omega) = syms[j])
   (hl : ∀ k, (hk : k < j) → syms[k]'(by omega) ∉ seen ∧ ∀ i, (h : i < k) → syms[i]'(by omega) ≠ syms[k]'(by omega)) :
   firstRepeat seen syms = some syms[j] := by
  induction syms generalizing seen j with
  | nil => simp at hj
  | cons b rest ih =>
    unfold firstRepeat
    cases j with
    | zero =>
      obtain hd | ⟨i, h, -⟩ := hd
      · simp only [List.getElem_cons_zero] at hd; rw [if_pos hd]; rfl
      · omega
    | succ j =>
      have h0 := (hl 0 (by omega)).1
      simp only [List.getElem_cons_zero] at h0
      rw [if_neg h0]
      simp only [List.getElem_cons_succ]
      apply ih
      · simp only [List.getElem_cons_succ] at hd
        obtain hd | ⟨i, h, he⟩ := hd
        · left; simp [hd]
        · cases i with
          | zero => left; simp at he; simp [he]
          | succ i => right; exact ⟨i, by omega, by simpa using he⟩
      · intro k hk
        have h1 := hl (k+1) (by omega)
        simp only [List.getElem_cons_succ] at h1
        refine ⟨?_, fun i h => by simpa using h1.2 (i+1) (by omega)⟩
        have := h1.2 0 (by omega)
        simp at this
        simp [h1.1, Ne.symm this]

/-! ### Closed forms and streams -/

theorem encodedSize_le_maxLen_iff (w n : Nat) : encodedSize n ≤ maxLen w ↔ n ≤ 5 * (2 ^ w - 1) / 8 := by
  rw [encodedSize_eq, maxLen]; omega

/-- The values of all byte steps and of the finish step are those of the closed forms (R82, R83). -/
theorem encAll_values_eq (o : BitOrder) (bytes : List Byte) :
    (encAll o 0 0 bytes).values ++ encLast o (encAll o 0 0 bytes).acc (encAll o 0 0 bytes).pend = encodeValues o bytes := by
  have hm := encodedSize_eq bytes.length
  cases o with
  | inverted =>
    rw [encAll_inverted 0 0 bytes (by omega) (by simp)]
    simp only [encodeValues, encLast, Nat.zero_add, Nat.pow_zero, Nat.mul_one]
    split
    · rw [show encodedSize bytes.length = 8 * bytes.length / 5 + 1 by omega, List.range_succ, List.map_append]; rfl
    · rw [show encodedSize bytes.length = 8 * bytes.length / 5 by omega]; simp
  | normal =>
    rw [encAll_normal 0 0 bytes (by omega) (by simp)]
    simp only [encodeValues, encLast, Nat.zero_add, Nat.zero_mul]
    generalize bigEndian 256 (bytes.map BitVec.toNat) = N
    split
    · have hq : encodedSize bytes.length = 8 * bytes.length / 5 + 1 := by omega
      rw [hq, List.range_succ, List.map_append]
      congr 1
      · refine List.map_congr_left fun k hk => ?_
        have := List.mem_range.1 hk
        rw [show 5 * (8 * bytes.length / 5 + 1 - 1 - k) = (5 * (8 * bytes.length / 5 + 1) - 8 * bytes.length) + (8 * bytes.length - 5 * (k + 1)) by omega, Nat.shiftRight_add, Nat.shiftLeft_shiftRight]
      · simp only [List.map_cons, List.map_nil, List.cons.injEq, and_true, Nat.add_sub_cancel, Nat.sub_self, Nat.mul_zero, Nat.shiftRight_zero]
        rw [show 5 * (8 * bytes.length / 5 + 1) - 8 * bytes.length = 5 - 8 * bytes.length % 5 by omega]
        apply BitVec.eq_of_toNat_eq
        simp only [mask5, BitVec.toNat_ofNat, Nat.shiftLeft_eq]
        generalize hp : 8 * bytes.length % 5 = p at *
        have : 2 ^ 5 = 2 ^ p * 2 ^ (5 - p) := by rw [← Nat.pow_add]; congr 1; omega
        rw [this, Nat.mul_mod_mul_right, Nat.mul_mod_mul_right, Nat.mod_mod]
    · rw [show encodedSize bytes.length = 8 * bytes.length / 5 by omega, List.append_nil]
      refine List.map_congr_left fun k hk => ?_
      have := List.mem_range.1 hk
      rw [show 5 * (8 * bytes.length / 5 - 1 - k) = (5 * (8 * bytes.length / 5) - 8 * bytes.length) + (8 * bytes.length - 5 * (k + 1)) by omega, Nat.shiftRight_add, Nat.shiftLeft_shiftRight]

theorem encodeValues_length (o) (bytes : List Byte) : (encodeValues o bytes).length = encodedSize bytes.length := by
  cases o <;> simp [encodeValues]

theorem decAll_bytes_eq (o : BitOrder) (vs : List Val5) : (decAll o 0 0 vs).bytes = decodeBytes o vs := by
  cases o with
  | inverted => rw [decAll_inverted 0 0 vs (by omega) (by simp)]; simp [decodeBytes]
  | normal => rw [decAll_normal 0 0 vs (by omega) (by simp)]; simp [decodeBytes]

theorem decodeBytes_length (o) (vs : List Val5) : (decodeBytes o vs).length = 5 * vs.length / 8 := by
  cases o <;> simp [decodeBytes]

theorem firstInvalid_none (a : Alphabet) (n : Nat) (syms : List Byte) : firstInvalid a n syms = none ↔ ∀ c ∈ syms, decRead a c ≠ sentinel := by
  induction syms generalizing n with
  | nil => simp [firstInvalid]
  | cons c cs ih => unfold firstInvalid; split <;> simp_all

theorem decAll_pend (o : BitOrder) (acc pend : Nat) (vs : List Val5) (h : pend < 8) :
    (decAll o acc pend vs).pend = (pend + 5 * vs.length) % 8 := by
  induction vs generalizing acc pend with
  | nil => simp only [decAll, List.length_nil]; omega
  | cons b bs ih =>
    simp only [decAll, List.length_cons]
    rw [ih _ _ (by rw [decUnpack_pend _ _ _ _ h]; omega), decUnpack_pend _ _ _ _ h]; omega

theorem decodeWhole_ok {a : Alphabet} {syms bytes : List Byte} (h : decodeWhole a syms = .ok bytes) : (∀ c ∈ syms, decRead a c ≠ sentinel) ∧ bytes = decodeBytes a.order (syms.map (valueOf a)) := by
  unfold decodeWhole at h
  split at h
  · simp at h
  · exact ⟨(firstInvalid_none _ _ _).1 ‹_›, by simpa using h.symm⟩

theorem firstInvalid_at {a : Alphabet} {syms : List Byte} {i n : Nat} {c : Byte} (hi : syms[i]? = some c) (hc : decRead a c = sentinel)
   (hl : ∀ (j : Nat) (d : Byte), j < i → syms[j]? = some d → decRead a d ≠ sentinel) : firstInvalid a n syms = some (n + i, c) := by
  induction syms generalizing i n with
  | nil => simp at hi
  | cons b bs ih =>
    unfold firstInvalid
    cases i with
    | zero => simp at hi; subst hi; simp [hc]
    | succ i =>
      have h0 := hl 0 b (by omega) (by simp)
      rw [if_neg h0, ih (by simpa using hi) fun j d hj hd => hl (j+1) d (by omega) (by simpa using hd)]
      congr 2; omega

/-! ### Digits -/

theorem littleEndian_digits (B N m : Nat) :
    littleEndian B ((List.range m).map (fun k => N / B ^ k % B)) = N % B ^ m := by
  induction m generalizing N with
  | zero => simp [littleEndian, Nat.mod_one]
  | succ m ih =>
    rw [List.range_succ_eq_map, List.map_cons, List.map_map, littleEndian]
    have : ((fun k => N / B ^ k % B) ∘ Nat.succ) = fun k => (N / B) / B ^ k % B := by
      funext k; simp only [Function.comp, Nat.succ_eq_add_one, Nat.pow_succ, Nat.div_div_eq_div_mul, Nat.mul_comm]
    rw [this, ih, Nat.pow_zero, Nat.div_one, Nat.pow_succ, Nat.mul_comm (B ^ m) B, Nat.mod_mul]

theorem littleEndian_get (bs : List Byte) (j : Nat) (h : j < bs.length) :
    mask8 (littleEndian 256 (bs.map BitVec.toNat) >>> (8 * j)) = bs[j] := by
  induction bs generalizing j with
  | nil => simp at h
  | cons b bs ih =>
    rw [List.map_cons, littleEndian]
    cases j with
    | zero =>
      apply BitVec.eq_of_toNat_eq
      simp [mask8, Nat.add_mod]; exact b.isLt
    | succ j =>
      rw [List.getElem_cons_succ, ← ih j (by simpa using h), Nat.mul_succ, Nat.add_comm (8 * j), Nat.shiftRight_add]
      congr 2
      rw [Nat.shiftRight_eq_div_pow, show 2 ^ 8 = 256 by rfl, Nat.add_mul_div_left _ _ (by omega), Nat.div_eq_of_lt b.isLt]
      simp

theorem mask5_digits (N m : Nat) : ((List.range m).map (fun k => mask5 (N >>> (5 * k)))).map BitVec.toNat = (List.range m).map (fun k => N / 32 ^ k % 32) := by
  rw [List.map_map]; refine List.map_congr_left fun k _ => ?_
  simp [mask5, Nat.shiftRight_eq_div_pow, Nat.pow_mul]

theorem reverse_range_map {α} (f : Nat → α) (m : Nat) : ((List.range m).map (fun k => f (m - 1 - k))).reverse = (List.range m).map f := by
  refine List.ext_getElem (by simp) fun i h1 h2 => ?_
  simp at h1 h2 ⊢; congr 1; omega

/-- The decoder's closed form reads back what the encoder's placed (the arithmetic of R159). -/
theorem decodeBytes_encodeValues (o : BitOrder) (bs : List Byte) : decodeBytes o (encodeValues o bs) = bs := by
  have hm := encodedSize_eq bs.length
  have hlt : ∀ l : List Byte, littleEndian 256 (l.map BitVec.toNat) < 256 ^ l.length := fun l => by
    simpa using littleEndian_lt 256 (l.map BitVec.toNat) (by simp only [List.mem_map]; rintro _ ⟨x, -, rfl⟩; exact x.isLt)
  have hle : 256 ^ bs.length ≤ 32 ^ encodedSize bs.length := by
    rw [show 256 = 2 ^ 8 by rfl, show 32 = 2 ^ 5 by rfl, ← Nat.pow_mul, ← Nat.pow_mul]; exact Nat.pow_le_pow_right (by omega) (by omega)
  cases o with
  | inverted =>
    simp only [decodeBytes, encodeValues, List.length_map, List.length_range, mask5_digits]
    rw [littleEndian_digits _ _ _, Nat.mod_eq_of_lt (Nat.lt_of_lt_of_le (hlt bs) hle), show 5 * encodedSize bs.length / 8 = bs.length by omega]
    refine List.ext_getElem (by simp) fun i h1 h2 => ?_
    simp only [List.getElem_map, List.getElem_range]; exact littleEndian_get _ _ h2
  | normal =>
    simp only [decodeBytes, encodeValues, List.length_map, List.length_range]
    have hmm : (List.map BitVec.toNat
              (List.map (fun k => mask5 ((bigEndian 256 (List.map BitVec.toNat bs) <<< (5 * encodedSize bs.length - 8 * bs.length)) >>>
                      (5 * (encodedSize bs.length - 1 - k)))) (List.range (encodedSize bs.length)))).reverse
       = (List.range (encodedSize bs.length)).map (fun k => (bigEndian 256 (List.map BitVec.toNat bs) <<< (5 * encodedSize bs.length - 8 * bs.length)) / 32 ^ k % 32) := by
      rw [← mask5_digits, ← List.map_reverse]
      congr 1
      exact reverse_range_map (fun k => mask5 ((bigEndian 256 (List.map BitVec.toNat bs) <<< (5 * encodedSize bs.length - 8 * bs.length)) >>> (5 * k))) _
    have hb : bigEndian 256 (List.map BitVec.toNat bs) < 256 ^ bs.length := by
      have := hlt bs.reverse; simpa [bigEndian] using this
    rw [show ∀ l, bigEndian 32 l = littleEndian 32 l.reverse from fun _ => rfl, hmm, littleEndian_digits _ _ _, Nat.mod_eq_of_lt, show 5 * encodedSize bs.length / 8 = bs.length by omega]
    · refine List.ext_getElem (by simp) fun i h1 h2 => ?_
      simp only [List.getElem_map, List.getElem_range]
      rw [show 5 * encodedSize bs.length - 8 * (i + 1) = (5 * encodedSize bs.length - 8 * bs.length) + 8 * (bs.length - 1 - i) by omega, Nat.shiftRight_add, Nat.shiftLeft_shiftRight]
      have := littleEndian_get bs.reverse (bs.length - 1 - i) (by simp; omega)
      rw [List.map_reverse] at this
      rw [bigEndian, this, List.getElem_reverse]
      congr 1; omega
    · rw [Nat.shiftLeft_eq]
      calc _ < 256 ^ bs.length * 2 ^ (5 * encodedSize bs.length - 8 * bs.length) := Nat.mul_lt_mul_of_pos_right hb (Nat.two_pow_pos _)
        _ = 32 ^ encodedSize bs.length := by
          rw [show 256 = 2 ^ 8 by rfl, show 32 = 2 ^ 5 by rfl, ← Nat.pow_mul, ← Nat.pow_mul, ← Nat.pow_add]; congr 1; omega

end Sys2Proof.Machine
end

