-- ==== Sys2Proof/Tests/Slice0.lean ====
section
/-! SUPPORT. Tests: words written out from 30_encoding.md R71, the checks of WellFormed on ill-formed fields, single steps against the worked examples of the spec, and a witness for the hypotheses of every statement that has some. -/

namespace Sys2Proof.Tests

open Sys2Proof Sys2Proof.Machine

-- one theorem at a time: many kernel evaluations at once need more memory than the check allows
set_option Elab.async false

/-! ### Words, bit by bit from the table of R71 -/

theorem test_word_clr : decodeTableWord 8 0b00000000 = some .clr := by decide
theorem test_word_loadb_zbase32 : decodeTableWord 8 0b00000001 = some .loadbZbase32 := by decide
theorem test_word_loadb_rfc4648 : decodeTableWord 8 0b00010001 = some .loadbRfc4648 := by decide
theorem test_word_loadb_bech32 : decodeTableWord 8 0b00100001 = some .loadbBech32 := by decide
theorem test_word_build_normal : decodeTableWord 8 0b00000010 = some .buildNormal := by decide
theorem test_word_build_inverted : decodeTableWord 8 0b00001010 = some .buildInverted := by decide
theorem test_word_enclen : decodeTableWord 8 0b00000011 = some .enclen := by decide
theorem test_word_declen : decodeTableWord 8 0b00000100 = some .declen := by decide
theorem test_word_encode : decodeTableWord 8 0b00000101 = some .encode := by decide
theorem test_word_decode : decodeTableWord 8 0b00000110 = some .decode := by decide

/-- The examples of R74, each with its reason. -/
theorem test_illegal_words :
    decode 0x07#8 = .illegal .reservedOp ∧ decode 0x31#8 = .illegal .reservedSel ∧
    decode 0x09#8 = .illegal .ordNotUsed ∧ decode 0x15#8 = .illegal .selNotUsed ∧
    decode 0x45#8 = .illegal .zeroFieldSet ∧ decode 0x80#8 = .illegal .zeroFieldSet := by decide

/-! ### WellFormed refuses, check by check -/

theorem test_wellFormed_zero : CmdFields.wellFormed { zero := 1, sel := 0, ord := 0, op := 0 } = false := by decide
theorem test_wellFormed_op : CmdFields.wellFormed { zero := 0, sel := 0, ord := 0, op := 7 } = false := by decide
theorem test_wellFormed_sel_three : CmdFields.wellFormed { zero := 0, sel := 3, ord := 0, op := 1 } = false := by decide
theorem test_wellFormed_sel_unused : CmdFields.wellFormed { zero := 0, sel := 1, ord := 0, op := 5 } = false := by decide
theorem test_wellFormed_ord_unused : CmdFields.wellFormed { zero := 0, sel := 0, ord := 1, op := 1 } = false := by decide
theorem test_wellFormed_legal : CmdFields.wellFormed { zero := 0, sel := 2, ord := 0, op := 1 } = true := by decide

/-! ### States the tests start from -/

/-- The idle CORE after reset with the built-in alphabet k, LEN = n and items offered on IN. -/
def under (k : Builtin) (n : Nat) (items : List Byte) : State :=
  { State.reset with alpha := rom k, len := n, inp := items }

/-- The same with a command about to be written. -/
def about (k : Builtin) (w : Byte) (items rest : List Byte) : State :=
  { under k items.length (items ++ rest) with host := [.write 0 w.toNat] }

/-- The same in the middle of an operation: phase, position, ACC and PEND. -/
def midway (k : Builtin) (p : Phase) (idx n acc pend : Nat) (items : List Byte) : State :=
  { under k n items with ph := p, idx := idx, acc := BitVec.ofNat 12 acc, pend := BitVec.ofNat 4 pend }

/-- A BUILD with STAGE filled and the check to come. -/
def staged (t : Table 32) (o : BitOrder) : State :=
  { under .zbase32 32 [] with ph := .build, idx := 32, stage := t, ordLatch := o }

/-- What a test looks at in the outcome of a step. -/
def see {α : Type} (f : State → α) : Host.Outcome State Fault Refusal → Option α
  | .next t => some (f t)
  | .fault _ => none
  | .refused _ => none

/-- The string of the example of R103, "0123456789ABCDEFGHJKMNPQRSTVWXYZ". -/
def crockford : Table 32 :=
  { entries := "0123456789ABCDEFGHJKMNPQRSTVWXYZ".toList.map (fun c => BitVec.ofNat 8 c.toNat), size_eq := by decide }

/-! ### Single steps against the spec's worked examples -/

/-- R175: after a DECODE fault with STATUS = 0x44, CLR gives 0x02. -/
theorem test_clr_after_fault :
    see (fun t => (t.status, t.errOffset, t.errByte)) (exec .clr ((under .zbase32 4 []).raise (.decInvalidByte 3 0x3D#8))) =
      some (0x02#8, 0, 0x00#8) := by decide +kernel

/-- Positions of the table of R110 for zbase32: 8 is 'e', 0x68 is 28; 'l' is no symbol. -/
theorem test_loadb_zbase32 :
    see (fun t => (encRead t.alpha 8, decRead t.alpha 0x68#8, decRead t.alpha 0x6C#8, t.alpha.order)) (exec .loadbZbase32 (under .bech32 0 [])) =
      some (0x65#8, 28#8, 0xFF#8, .inverted) := by decide +kernel

/-- The example of R109. -/
theorem test_loadb_rfc4648 :
    see (fun t => (encRead t.alpha 0, encRead t.alpha 26, decRead t.alpha 0x37#8, t.alpha.order, t.status))
      (exec .loadbRfc4648 State.reset) = some (0x41#8, 0x32#8, 31#8, .normal, 0x02#8) := by decide +kernel

/-- Positions of the table of R110 for Bech32: 31 is 'l', 0x30 is 15; 'b' is no symbol. -/
theorem test_loadb_bech32 :
    see (fun t => (encRead t.alpha 31, decRead t.alpha 0x30#8, decRead t.alpha 0x62#8, t.alpha.order)) (exec .loadbBech32 State.reset) =
      some (0x6C#8, 15#8, 0xFF#8, .normal) := by decide +kernel

/-- R104's example: a 36-byte string, nothing consumed. -/
theorem test_build_length :
    see (fun t => (t.status, t.inp)) (exec .buildNormal (under .zbase32 36 [0x0C#8])) = some (0x14#8, [0x0C#8]) := by decide +kernel

/-- The worked example of R103, the commit step. -/
theorem test_build_commit :
    see (fun t => (encRead t.alpha 0, encRead t.alpha 10, encRead t.alpha 31, decRead t.alpha 0x41#8, decRead t.alpha 0x49#8, t.status))
      (coreStep (staged crockford .normal)) = some (0x30#8, 0x41#8, 0x5A#8, 10#8, 0xFF#8, 0x02#8) := by decide +kernel

/-- R105's example: a form feed among printable bytes; R107: it wins over the repeated byte before it. -/
theorem test_build_unprintable :
    see (fun t => (t.status, t.errByte)) (coreStep (staged (((crockford.set 5 0x30#8).set 20 0x0C#8)) .inverted)) =
      some (0x24#8, 0x0C#8) := by decide +kernel

/-- R106's corner: position 31 repeats position 0. -/
theorem test_build_duplicate :
    see (fun t => (t.status, t.errByte, t.errOffset)) (coreStep (staged (crockford.set 31 0x30#8) .normal)) =
      some (0x34#8, 0x30#8, 0) := by decide +kernel

/-- R120's example: LEN = 7 gives 12. -/
theorem test_enclen : see (fun t => (t.result, t.status)) (exec .enclen (under .zbase32 7 [])) = some (12, 0x02#8) := by
  decide +kernel

/-- R122's threshold at LEN_W = 16. -/
theorem test_enclen_overflow :
    see (fun t => (t.result, t.status)) (exec .enclen (under .zbase32 40960 [])) = some (0, 0x64#8) := by decide +kernel

/-- R123's example: LEN = 13 gives 10. -/
theorem test_declen : see (fun t => (t.result, t.status)) (exec .declen (under .zbase32 13 [])) = some (10, 0x02#8) := by
  decide +kernel

/-- R135's example: "test123" ends with ACC = 1, PEND = 1, so 'Q'. -/
theorem test_encode_finish_normal :
    see (fun t => (t.out, t.status)) (coreStep (midway .rfc4648 .enc 7 7 1 1 [])) = some ([0x51#8], 0x02#8) := by decide +kernel

/-- Row 1 of the Inverted trace of 42_encoder.md section 3: 'e' after ACC = 3, PEND = 3. -/
theorem test_encode_byte_inverted :
    see (fun t => (t.out, t.acc, t.pend)) (coreStep (midway .zbase32 .enc 1 5 3 3 [0x65#8])) =
      some ([0x6D#8, 0x33#8], 0, 1) := by decide +kernel

/-- R153's example: 'B' after 'N'. -/
theorem test_decode_symbol_normal :
    see (fun t => (t.out, t.acc, t.pend)) (coreStep (midway .rfc4648 .dec 1 8 13 5 [0x42#8])) = some ([0x68#8], 1, 2) := by
  decide +kernel

/-- R152's example: "NBSW=3DP" faults at offset 4 with 0x3D; 0x33 is not consumed. -/
theorem test_decode_invalid :
    see (fun t => (t.status, t.errOffset, t.errByte, t.idx, t.inp)) (coreStep (midway .rfc4648 .dec 4 8 0 4 [0x3D#8, 0x33#8])) =
      some (0x44#8, 4, 0x3D#8, 4, [0x33#8]) := by decide +kernel

/-- R188: an illegal word through the whole of step. -/
theorem test_illegal_step : see State.status (step ((under .zbase32 0 []).withFetchWord 8 0x31)) = some 0x74#8 := by decide +kernel

/-! ### Witnesses: the hypotheses of the statements can be met -/

theorem reset_inv : State.reset.Inv := resetCore_inv (s := State.reset) (by decide)

theorem under_inv (k : Builtin) (n : Nat) (items : List Byte) (h : n ≤ maxLen 16) : (under k n items).Inv :=
  State.Inv.of_idle reset_inv rfl rfl (rom_wf k) rfl reset_inv.err_kind reset_inv.err_clear reset_inv.no_reserved_kind h
    reset_inv.result_fits reset_inv.errOffset_fits reset_inv.idx_fits reset_inv.outcnt_fits

/-- An ENCODE of one byte, accepted. -/
def encoding : State := { State.prologue (under .zbase32 1 [0x61#8]) with ph := .enc }

theorem encoding_inv : encoding.Inv :=
  exec_inv (i := .encode) (under_inv .zbase32 1 [0x61#8] (by decide)) rfl

/-- A BUILD, accepted. -/
def building : State := { State.prologue (under .zbase32 32 [0x61#8]) with ordLatch := .normal, ph := .build }

theorem building_inv : building.Inv := exec_inv (i := .buildNormal) (under_inv .zbase32 32 [0x61#8] (by decide)) rfl

theorem witness_ResetMeetsTheInvariants : 8 ≤ 16 ∧ 8 ≤ 8 := by decide

theorem witness_EveryStepKeepsTheInvariants : ∃ s t : State, s.Inv ∧ step s = .next t ∧ t ≠ s :=
  ⟨encoding, _, encoding_inv, rfl, by decide +kernel⟩

theorem witness_NoStepStopsUnderTheInvariants : State.reset.Inv ∧ encoding.Inv := ⟨reset_inv, encoding_inv⟩

theorem witness_NoStepChangesLenW : step State.reset = .next State.reset := rfl

theorem witness_DecodeTableIsTheInverse :
    (rom .zbase32).Wf ∧ (31#8).toNat ≤ 31 ∧ 127 ≤ (127#8).toNat ∧ decRead (rom .zbase32) 0x79#8 ≠ 0xFF#8 :=
  ⟨rom_wf _, by decide, by decide, by decide +kernel⟩

theorem witness_ResetStepRestoresEveryComponent :
    (∃ s : State, s.rst = true ∧ s.host = []) ∧
    (∃ (s : State) (e : HostEvent) (rest : List HostEvent), s.rst = true ∧ s.host = e :: rest ∧ e ≠ .rst false) ∧
    (∃ (s : State) (rest : List HostEvent), s.rst = true ∧ s.host = .rst false :: rest) ∧
    (∃ (s : State) (rest : List HostEvent), s.nextEvent (.rst true) rest) :=
  ⟨⟨{ encoding with rst := true }, rfl, rfl⟩, ⟨{ encoding with rst := true, host := [.write 2 5] }, .write 2 5, [], rfl, rfl, by decide⟩,
    ⟨{ encoding with rst := true, host := [.rst false] }, [], rfl, rfl⟩, ⟨{ encoding with host := [.rst true] }, [], rfl, rfl⟩⟩

theorem witness_CmdWriteRunsTheDecodedCommand :
    ∃ (s : State) (w : Byte) (rest : List HostEvent) (i : Instr),
      s.nextEvent (.write 0 w.toNat) rest ∧ s.busy = false ∧ decode w = .command i :=
  ⟨about .rfc4648 0x05#8 [0x68#8] [], 0x05#8, [], .encode, ⟨rfl, rfl⟩, rfl, rfl⟩

theorem witness_IllegalWordFaultsAtOnce :
    ∃ (s : State) (w : Byte) (rest : List HostEvent),
      s.nextEvent (.write 0 w.toNat) rest ∧ s.busy = false ∧ (∀ i, encode i ≠ w) :=
  ⟨about .rfc4648 0x07#8 [] [], 0x07#8, [], ⟨rfl, rfl⟩, rfl, by intro i; cases i <;> decide⟩

theorem witness_BusyCoreIgnoresRegisterWrites :
    ∃ (s : State) (reg data : Nat) (rest : List HostEvent), s.nextEvent (.write reg data) rest ∧ s.busy = true :=
  ⟨{ encoding with host := [.write 0 0] }, 0, 0, [], ⟨rfl, rfl⟩, rfl⟩

theorem witness_ReservedAndReadOnlyRegisters :
    ((0 : Nat) = 0 ∨ 6 ≤ 0) ∧ ((6 : Nat) = 0 ∨ 6 ≤ 6) ∧
    ∃ (s : State) (reg data : Nat) (rest : List HostEvent), reg ≠ 0 ∧ reg ≠ 2 ∧ s.nextEvent (.write reg data) rest :=
  ⟨by decide, by decide, { encoding with host := [.write 1 0] }, 1, 0, [], by decide, by decide, rfl, rfl⟩

theorem witness_LenWriteTakesTheValueWhenIdle :
    (∃ (s : State) (data : Nat) (rest : List HostEvent),
      s.nextEvent (.write 2 data) rest ∧ data ≤ 2 ^ s.lenW - 1 ∧ s.busy = false) ∧
    (∃ (s : State) (data : Nat) (rest : List HostEvent),
      s.nextEvent (.write 2 data) rest ∧ data ≤ 2 ^ s.lenW - 1 ∧ s.busy = true) :=
  ⟨⟨{ under .zbase32 0 [] with host := [.write 2 65535] }, 65535, [], ⟨rfl, rfl⟩, by decide, rfl⟩,
    ⟨{ encoding with host := [.write 2 0] }, 0, [], ⟨rfl, rfl⟩, by decide, rfl⟩⟩

/-- An item moves over each port; in_ready is 1; an item stands on OUT before a ready sink. -/
theorem witness_PortSignalsFollowTheState :
    ∃ (s t : State) (b : Byte), s.inReady = true ∧ s.Inv ∧ coreStep s = .next t ∧ t.inp ≠ s.inp ∧ t.out ≠ s.out ∧
      s.outData = some b ∧ s.outReady = true :=
  ⟨encoding, encStep encoding, 0x62#8, by decide +kernel, encoding_inv, rfl, by decide +kernel, by decide +kernel,
    by decide +kernel, rfl⟩

/-- R65 in a sink hold: the item on IN does not move, so in_ready is 0 (log 8). -/
theorem test_in_ready_in_sink_hold :
    State.inReady { encoding with outReady := false } = false ∧ State.inReady encoding = true := by decide +kernel

theorem witness_CoreTakesItsOwnStepWhenTheHostLetsIt :
    encoding.coreRuns ∧ ∃ (s : State) (rest : List HostEvent), s.nextEvent .tick rest :=
  ⟨⟨rfl, rfl⟩, { encoding with host := [.tick] }, [], rfl, rfl⟩

theorem witness_HostSideEventsLeaveTheCore :
    (∃ (s : State) (b : Byte) (rest : List HostEvent), s.nextEvent (.present b) rest) ∧
    (∃ (s : State) (rest : List HostEvent), s.nextEvent .withdraw rest) ∧
    (∃ (s : State) (r : Bool) (rest : List HostEvent), s.nextEvent (.sink r) rest) :=
  ⟨⟨{ encoding with host := [.present 0x61#8] }, 0x61#8, [], rfl, rfl⟩, ⟨{ encoding with host := [.withdraw] }, [], rfl, rfl⟩,
    ⟨{ encoding with host := [.sink false] }, false, [], rfl, rfl⟩⟩

theorem witness_FaultsLeaveAlphabetAndLen : ∃ s t : State, s.Inv ∧ step s = .next t ∧ t.err = true :=
  ⟨{ under .rfc4648 31 [] with host := [.write 0 2] }, _,
    State.Inv.of_host (under_inv .rfc4648 31 [] (by decide)) [] true [.write 0 2] false, rfl, by decide +kernel⟩

theorem witness_AlphabetChangesInThreeEventsOnly : ∃ s t : State, step s = .next t ∧ t.alpha ≠ s.alpha :=
  ⟨staged crockford .normal, buildCheck (staged crockford .normal), rfl, by decide +kernel⟩

theorem witness_BuildFaultsOnAnyOtherLength : (under .zbase32 36 []).len ≠ 32 ∧ (under .zbase32 0 []).len ≠ 32 := by decide

theorem witness_BuildStartsAtLengthThirtyTwo : (under .zbase32 32 []).len = 32 := rfl

theorem witness_BuildFillStoresTheItem :
    ∃ (s : State) (b : Byte) (rest : List Byte), s.ph = .build ∧ s.idx < 32 ∧ s.inp = b :: rest :=
  ⟨building, 0x61#8, [], rfl, by decide, rfl⟩

/-- The three clauses: an unprintable byte (31 and 127 are just outside), a repeat, neither. -/
theorem witness_BuildCheckFaultsOrCommits :
    (∃ (s : State) (i : Fin 32), s.ph = .build ∧ s.idx = 32 ∧ ¬ (32 ≤ (s.stage.get i).toNat ∧ (s.stage.get i).toNat ≤ 126) ∧
      ∀ j : Fin 32, j < i → 32 ≤ (s.stage.get j).toNat ∧ (s.stage.get j).toNat ≤ 126) ∧
    (∃ (s : State) (i : Fin 32), s.ph = .build ∧ s.idx = 32 ∧ ¬ (32 ≤ (s.stage.get i).toNat ∧ (s.stage.get i).toNat ≤ 126) ∧
      ∀ j : Fin 32, j < i → 32 ≤ (s.stage.get j).toNat ∧ (s.stage.get j).toNat ≤ 126) ∧
    (∃ (s : State) (j : Fin 32), s.ph = .build ∧ s.idx = 32 ∧
      (∀ i : Fin 32, 32 ≤ (s.stage.get i).toNat ∧ (s.stage.get i).toNat ≤ 126) ∧
      (∃ i : Fin 32, i < j ∧ s.stage.get i = s.stage.get j) ∧
      (∀ k : Fin 32, k < j → ∀ i : Fin 32, i < k → s.stage.get i ≠ s.stage.get k)) ∧
    (∃ s : State, s.ph = .build ∧ s.idx = 32 ∧ (∀ i : Fin 32, 32 ≤ (s.stage.get i).toNat ∧ (s.stage.get i).toNat ≤ 126) ∧
      ∀ i j : Fin 32, s.stage.get i = s.stage.get j → i = j) :=
  ⟨⟨staged (crockford.set 31 31#8) .normal, 31, rfl, rfl, by decide, by decide +kernel⟩,
    ⟨staged (crockford.set 0 127#8) .normal, 0, rfl, rfl, by decide, by decide +kernel⟩,
    ⟨staged ((crockford.set 31 0x30#8).set 1 126#8) .normal, 31, rfl, rfl, by decide +kernel, ⟨0, by decide, by decide⟩, by decide +kernel⟩,
    ⟨staged (crockford.set 1 32#8) .normal, rfl, rfl, by decide +kernel, by decide +kernel⟩⟩

theorem about_ready (k : Builtin) (i : Instr) (items rest : List Byte) :
    (about k (encode i) items rest).readyFor i items rest := ⟨rfl, rfl, rfl, rfl, rfl, rfl⟩

/-- Both clauses: a BUILD that commits, a BUILD that faults. -/
theorem witness_BuildRunIsTheFunction :
    (∃ (s : State) (ord : BitOrder) (syms rest : List Byte), s.readyFor (buildCommand ord) syms rest ∧ ∃ a, buildWhole syms ord = .ok a) ∧
    (∃ (s : State) (ord : BitOrder) (syms rest : List Byte), s.readyFor (buildCommand ord) syms rest ∧ ∃ r, buildWhole syms ord = .error r) :=
  ⟨⟨about .zbase32 (encode .buildNormal) crockford.entries [], .normal, crockford.entries, [], about_ready .zbase32 .buildNormal _ _,
      alphabetOf crockford .normal, rfl⟩,
    ⟨about .zbase32 (encode .buildInverted) [0x61#8] [0x62#8], .inverted, [0x61#8], [0x62#8], about_ready .zbase32 .buildInverted _ _,
      .valInvalidLength, rfl⟩⟩

theorem witness_BuildOfABuiltinEqualsLoadb :
    ∃ (s : State) (k : Builtin) (rest : List Byte), s.readyFor (buildCommand (romOrder k)) (romSym k).entries rest :=
  ⟨about .zbase32 (encode .buildNormal) (romSym .bech32).entries [], .bech32, [], about_ready .zbase32 .buildNormal _ _⟩

/-- Each remainder, with the largest lengths of LEN_W = 16 for two of them. -/
theorem witness_EnclenGivesTheExactLength :
    ∀ p ∈ [(0, 0, 0, 0), (40956, 8191, 1, 2), (40957, 8191, 2, 4), (3, 0, 3, 5), (40959, 8191, 4, 7)],
      (under .zbase32 p.1 []).len = 5 * p.2.1 + p.2.2.1 ∧ p.2.2.1 < 5 ∧ [0, 2, 4, 5, 7][p.2.2.1]? = some p.2.2.2 ∧
      8 * p.2.1 + p.2.2.2 ≤ 2 ^ (under .zbase32 p.1 []).lenW - 1 := by decide +kernel

theorem witness_EnclenOverflowsAboveTheThreshold :
    5 * (2 ^ (under .zbase32 40960 []).lenW - 1) / 8 < (under .zbase32 40960 []).len := by decide

theorem witness_EncodedLengthIsCeilUpToTheThreshold :
    4 < 5 ∧ [0, 2, 4, 5, 7][4]? = some 7 ∧ 159 ≤ 5 * (2 ^ 8 - 1) / 8 ∧ 5 * (2 ^ 8 - 1) / 8 < 160 := by decide

theorem witness_EncodeStartsWhenTheLengthFits :
    (under .zbase32 40959 []).len ≤ 5 * (2 ^ (under .zbase32 40959 []).lenW - 1) / 8 := by decide

theorem witness_EncodeOverflowFaultsBeforeAnyInput :
    5 * (2 ^ (under .zbase32 40960 []).lenW - 1) / 8 < (under .zbase32 40960 []).len := by decide

theorem witness_EncodeByteStepNormal :
    ∃ (s : State) (b : Byte) (rest : List Byte) (A P : Nat),
      s.ph = .enc ∧ s.alpha.order = .normal ∧ s.idx < s.len ∧ s.inp = b :: rest ∧ s.outReady = true ∧
      A = s.acc.toNat * 256 + b.toNat ∧ P = s.pend.toNat + 8 :=
  ⟨midway .rfc4648 .enc 3 5 0x00C 4 [0x6C#8], 0x6C#8, [], 0xC6C, 12, rfl, rfl, by decide, rfl, rfl, rfl, rfl⟩

theorem witness_EncodeByteStepInverted :
    ∃ (s : State) (b : Byte) (rest : List Byte) (A P : Nat),
      s.ph = .enc ∧ s.alpha.order = .inverted ∧ s.idx < s.len ∧ s.inp = b :: rest ∧ s.outReady = true ∧
      s.acc.toNat < 2 ^ s.pend.toNat ∧ A = s.acc.toNat + b.toNat * 2 ^ s.pend.toNat ∧ P = s.pend.toNat + 8 :=
  ⟨midway .zbase32 .enc 3 5 0x006 4 [0x6C#8], 0x6C#8, [], 0x6C6, 12, rfl, rfl, by decide, rfl, rfl, by decide, rfl, rfl⟩

/-- Both clauses: nothing pending, and four bits pending. -/
theorem witness_EncodeFinishPutsTheShortSymbol :
    (∃ s : State, s.ph = .enc ∧ s.idx = s.len ∧ s.pend.toNat ≤ 4 ∧ s.acc.toNat < 2 ^ s.pend.toNat ∧ s.pend = 0) ∧
    (∃ s : State, s.ph = .enc ∧ s.idx = s.len ∧ s.pend.toNat ≤ 4 ∧ s.acc.toNat < 2 ^ s.pend.toNat ∧ s.pend ≠ 0 ∧
      s.outReady = true) :=
  ⟨⟨midway .zbase32 .enc 0 0 0 0 [], rfl, rfl, by decide, by decide, rfl⟩,
    ⟨midway .zbase32 .enc 8 8 6 4 [], rfl, rfl, by decide, by decide, by decide, rfl⟩⟩

theorem witness_EncodePutsOutSymbolsOnly : ∃ s t : State, s.Inv ∧ s.ph = .enc ∧ step s = .next t ∧ t.out ≠ s.out :=
  ⟨encoding, _, encoding_inv, rfl, rfl, by decide +kernel⟩

theorem witness_EncoderLanesNormal :
    ∃ (s : State) (b0 b1 b2 b3 b4 : Byte) (rest : List Byte),
      s.readyFor .encode [b0, b1, b2, b3, b4] rest ∧ s.alpha.order = .normal ∧ 8 ≤ s.lenW :=
  ⟨about .rfc4648 (encode .encode) [0x68, 0x65, 0x6C, 0x6C, 0x6F] [], 0x68, 0x65, 0x6C, 0x6C, 0x6F, [],
    about_ready .rfc4648 .encode _ _, rfl, by decide⟩

theorem witness_EncoderLanesInverted :
    ∃ (s : State) (b0 b1 b2 b3 b4 : Byte) (rest : List Byte),
      s.readyFor .encode [b0, b1, b2, b3, b4] rest ∧ s.alpha.order = .inverted ∧ 8 ≤ s.lenW :=
  ⟨about .zbase32 (encode .encode) [0x68, 0x65, 0x6C, 0x6C, 0x6F] [], 0x68, 0x65, 0x6C, 0x6C, 0x6F, [],
    about_ready .zbase32 .encode _ _, rfl, by decide⟩

theorem witness_EncodeRunIsTheFunction :
    ∃ (s : State) (bytes rest : List Byte), s.readyFor .encode bytes rest ∧ bytes.length ≤ 5 * (2 ^ s.lenW - 1) / 8 :=
  ⟨about .zbase32 (encode .encode) [0x61] [0x62], [0x61], [0x62], about_ready .zbase32 .encode _ _, by decide⟩

theorem witness_DecodeInvalidSymbolFaults :
    ∃ (s : State) (c : Byte) (rest : List Byte),
      s.ph = .dec ∧ s.idx < s.len ∧ s.inp = c :: rest ∧ decRead s.alpha c = 0xFF#8 :=
  ⟨midway .rfc4648 .dec 4 8 0 4 [0x3D, 0x33], 0x3D, [0x33], rfl, by decide, rfl, by decide +kernel⟩

theorem witness_DecodeSymbolStepNormal :
    ∃ (s : State) (c : Byte) (rest : List Byte) (v A P : Nat),
      s.ph = .dec ∧ s.alpha.order = .normal ∧ s.idx < s.len ∧ s.inp = c :: rest ∧
      (decRead s.alpha c).toNat = v ∧ v < 32 ∧ A = s.acc.toNat * 32 + v ∧ P = s.pend.toNat + 5 ∧
      (s.outReady = true ∨ P < 8) :=
  ⟨midway .rfc4648 .dec 1 8 13 5 [0x42], 0x42, [], 1, 0x1A1, 10, rfl, rfl, by decide, rfl, by decide +kernel, by decide,
    by decide, by decide, .inl rfl⟩

/-- A step that puts out nothing, before a sink that is not ready. -/
theorem witness_DecodeSymbolStepInverted :
    ∃ (s : State) (c : Byte) (rest : List Byte) (v A P : Nat),
      s.ph = .dec ∧ s.alpha.order = .inverted ∧ s.idx < s.len ∧ s.inp = c :: rest ∧
      s.acc.toNat < 2 ^ s.pend.toNat ∧ (decRead s.alpha c).toNat = v ∧ v < 32 ∧ A = s.acc.toNat + v * 2 ^ s.pend.toNat ∧
      P = s.pend.toNat + 5 ∧ (s.outReady = true ∨ P < 8) :=
  ⟨{ midway .zbase32 .dec 0 8 0 0 [0x39] with outReady := false }, 0x39, [], 31, 31, 5, rfl, rfl, by decide, rfl, by decide,
    by decide +kernel, by decide, by decide, by decide, .inr (by decide)⟩

theorem witness_DecodeFinishDropsTheLeftOverBits : ∃ s : State, s.ph = .dec ∧ s.idx = s.len :=
  ⟨midway .zbase32 .dec 2 2 3 2 [], rfl, rfl⟩

theorem witness_DecoderLanes :
    (∃ (s : State) (v0 v1 v2 v3 v4 v5 v6 v7 : Val5) (rest : List Byte), s.alpha.Wf ∧
      s.readyFor .decode ([v0, v1, v2, v3, v4, v5, v6, v7].map (encRead s.alpha)) rest ∧ s.alpha.order = .normal) ∧
    (∃ (s : State) (v0 v1 v2 v3 v4 v5 v6 v7 : Val5) (rest : List Byte), s.alpha.Wf ∧
      s.readyFor .decode ([v0, v1, v2, v3, v4, v5, v6, v7].map (encRead s.alpha)) rest ∧ s.alpha.order = .inverted) :=
  ⟨⟨about .rfc4648 (encode .decode) ([0, 31, 1, 2, 3, 4, 5, 6].map (encRead (rom .rfc4648))) [], 0, 31, 1, 2, 3, 4, 5, 6, [],
      rom_wf _, about_ready .rfc4648 .decode _ _, rfl⟩,
    ⟨about .zbase32 (encode .decode) ([0, 31, 1, 2, 3, 4, 5, 6].map (encRead (rom .zbase32))) [], 0, 31, 1, 2, 3, 4, 5, 6, [],
      rom_wf _, about_ready .zbase32 .decode _ _, rfl⟩⟩

theorem witness_DecodeRunIsTheFunction :
    ∃ (s : State) (syms rest bytes : List Byte), s.alpha.Wf ∧ s.readyFor .decode syms rest ∧ decodeWhole s.alpha syms = .ok bytes :=
  ⟨about .zbase32 (encode .decode) [0x62, 0x64] [], [0x62, 0x64], [], [0x61], rom_wf _, about_ready .zbase32 .decode _ _,
    by rfl⟩

theorem witness_DecodeRunFaultsAtTheFirstInvalidItem :
    ∃ (s : State) (syms rest : List Byte) (i : Nat) (c : Byte), s.alpha.Wf ∧ s.readyFor .decode syms rest ∧
      syms[i]? = some c ∧ decRead s.alpha c = 0xFF#8 ∧
      (∀ (j : Nat) (d : Byte), j < i → syms[j]? = some d → decRead s.alpha d ≠ 0xFF#8) :=
  ⟨about .zbase32 (encode .decode) [0x3D, 0x64] [], [0x3D, 0x64], [], 0, 0x3D, rom_wf _, about_ready .zbase32 .decode _ _,
    rfl, by decide +kernel, fun j d h => absurd h (by omega)⟩

theorem witness_DecodeOfEncodeRestoresTheBytes :
    ∃ (s : State) (bytes rest : List Byte), s.alpha.Wf ∧ s.readyFor .encode bytes rest ∧
      bytes.length ≤ 5 * (2 ^ s.lenW - 1) / 8 :=
  ⟨about .zbase32 (encode .encode) [0x61] [], [0x61], [], rom_wf _, about_ready .zbase32 .encode _ _, by decide⟩

/-- The clauses: idle, no item offered, a sink that takes nothing, a running CORE that waits. -/
theorem witness_HoldsAreLiftedOnlyByTheHost :
    State.reset.ph = .idle ∧
    (∃ s : State, s.ph ≠ .idle ∧ s.Inv ∧ s.idx < s.len ∧ s.inp = [] ∧ coreStep s = .next s) ∧
    (∃ s : State, s.outValid = true ∧ s.outReady = false) :=
  ⟨rfl, ⟨{ encoding with inp := [] }, by decide, State.Inv.of_host encoding_inv [] true [] false, by decide, rfl, rfl⟩,
    ⟨{ encoding with outReady := false }, by decide +kernel, rfl⟩⟩

theorem witness_PhaseChangesAsTheTableSays : ∃ s t : State, step s = .next t ∧ t.ph ≠ s.ph :=
  ⟨about .zbase32 0x05#8 [0x61] [], _, rfl, by decide +kernel⟩

theorem witness_StreamsAreReadAndWrittenInOrder :
    ∃ s t : State, s.Inv ∧ coreStep s = .next t ∧ step s = .next t ∧ t.out ≠ s.out :=
  ⟨encoding, _, encoding_inv, rfl, rfl, by decide +kernel⟩

theorem witness_EverySuppliedOperationEnds :
    ∃ s : State, s.Inv ∧ s.coreRuns ∧ s.busy = true ∧ s.outReady = true ∧ s.len - s.idx ≤ s.inp.length :=
  ⟨encoding, encoding_inv, ⟨rfl, rfl⟩, rfl, rfl, by decide⟩

/-- Two idle CORES that differ in STAGE, RESULT and the last fault. -/
theorem witness_OutcomeDependsOnAlphabetLenAndHostOnly :
    ∃ (s1 s2 : State) (w : Byte) (events : List HostEvent) (k : Nat) (t1 : State),
      s1.ph = .idle ∧ s2.ph = .idle ∧ s1.nextEvent (.write 0 w.toNat) events ∧ s2.nextEvent (.write 0 w.toNat) events ∧
      s1.alpha = s2.alpha ∧ s1.len = s2.len ∧ s1.lenW = s2.lenW ∧ s1.inp = s2.inp ∧ s1.out = s2.out ∧
      s1.outReady = s2.outReady ∧ s1 ≠ s2 ∧ s1.runsTo (k + 1) t1 :=
  ⟨about .zbase32 0x05#8 [0x61] [],
    { State.raise (about .zbase32 0x05#8 [0x61] []) .illegalCmd with stage := crockford, result := 9 }, 0x05#8, [], 0,
    encoding, rfl, rfl, ⟨rfl, rfl⟩, ⟨rfl, rfl⟩, rfl, rfl, rfl, rfl, rfl, rfl, fun h => absurd (congrArg State.result h) (by decide),
    runsTo_succ (step_readyFor (about_ready .zbase32 .encode [0x61] [])) (runsTo_zero encoding)⟩

end Sys2Proof.Tests
end

section
/-! LEN_W is a parameter (00_scope.md R7, 10_state.md R20): what each part of a step does to it. -/

namespace Sys2Proof.Machine

/-- Acceptance starts, completes or faults an operation, at the width it found. -/
theorem exec_lenW {i : Instr} {s t : State} (h : exec i s = .next t) : t.lenW = s.lenW := by
  obtain ⟨_, rfl, -⟩ | ⟨_, rfl⟩ | ⟨rfl, -⟩ | ⟨rfl, -⟩ | ⟨_, rfl, -⟩ | ⟨_, rfl, -⟩ | rfl := exec_next_cases h
  all_goals rfl

theorem acceptCommand_lenW {w : Byte} {s t : State} (h : acceptCommand w s = .next t) : t.lenW = s.lenW := by
  obtain ⟨_, -, hexec⟩ | ⟨_, -, rfl⟩ := acceptCommand_next_cases h
  · exact exec_lenW hexec
  · rfl

theorem buildStep_lenW (s : State) : (buildStep s).lenW = s.lenW := by
  obtain hold | ⟨_, _, -, -, fill⟩ | ⟨-, check⟩ := buildStep_cases s
  · rw [hold]
  · rw [fill]; rfl
  · rw [check]
    obtain ⟨_, -, fault⟩ | ⟨-, commit⟩ := buildCheck_cases s
    · rw [fault, State.raise_lenW]
    · rw [commit]

theorem encStep_lenW (s : State) : (encStep s).lenW = s.lenW := by
  obtain hold | ⟨b, rest, -, -, byte⟩ | ⟨-, finish⟩ := encStep_cases s
  · rw [hold]
  · rw [byte]
    obtain hold | move := encodeByte_cases b rest s
    · rw [hold]
    · rw [move]
  · rw [finish]
    obtain hold | complete := encodeFinish_cases s
    · rw [hold]
    · rw [complete]

theorem decodeSymbol_lenW {c : Byte} {rest : List Byte} {s t : State} (h : decodeSymbol c rest s = .next t) :
    t.lenW = s.lenW := by
  obtain ⟨-, rfl⟩ | ⟨-, -, rfl⟩ := decodeSymbol_next h
  · rfl
  · obtain hold | move := decodeValue_cases (decRead s.alpha c).toNat rest s
    · rw [hold]
    · rw [move]

theorem decStep_lenW {s t : State} (h : decStep s = .next t) : t.lenW = s.lenW := by
  obtain hold | ⟨_, _, -, -, symbol⟩ | ⟨-, finish⟩ := decStep_cases s
  · obtain rfl : s = t := by simpa [hold] using h
    rfl
  · exact decodeSymbol_lenW (symbol ▸ h)
  · obtain rfl : decodeFinish s = t := by simpa [finish] using h
    rfl

/-- The CORE's own step, in every phase. -/
theorem coreStep_lenW {s t : State} (h : coreStep s = .next t) : t.lenW = s.lenW := by
  obtain ⟨-, rfl⟩ | ⟨-, rfl⟩ | ⟨-, rfl⟩ | ⟨-, hdec⟩ := coreStep_next_cases h
  · rfl
  · exact buildStep_lenW s
  · exact encStep_lenW s
  · exact decStep_lenW hdec

/-- Every host event; a reset takes the width over from the state it resets. -/
theorem hostStep_lenW {e : HostEvent} {s t : State} (h : hostStep e s = .next t) : t.lenW = s.lenW := by
  obtain ⟨_, -, -, hcmd⟩ | ⟨_, -, -, rfl⟩ | ⟨-, rfl⟩ | ⟨-, hcore⟩ | ⟨_, _, rfl⟩ := hostStep_next_cases h
  · exact acceptCommand_lenW hcmd
  · rfl
  · rw [State.resetCore_lenW, hostSide_lenW]
  · exact coreStep_lenW hcore
  · rfl

/-- Settles O5, by who acts in the step: the reset, the CORE or the host. -/
theorem noStepChangesLenW : Obligations.NoStepChangesLenW := by
  intro s t h
  obtain ⟨-, rfl⟩ | ⟨-, -, hcore⟩ | ⟨_, _, -, -, hhost⟩ := step_next_cases h
  · exact resetStep_lenW s
  · exact coreStep_lenW hcore
  · exact (hostStep_lenW hhost :)

end Sys2Proof.Machine
end

section
/-! One equation per case for the parts of a step that later proofs follow case by case (44_system.md R171): the CORE's
own step by phase, the steps of a phase by the position of IDX, a register write by its register. -/

namespace Sys2Proof.Machine

/-! ### The CORE's own step by phase -/

theorem coreStep_of_idle {s : State} (hp : s.ph = .idle) : coreStep s = .next s := by simp [coreStep, hp]

theorem coreStep_of_build {s : State} (hp : s.ph = .build) : coreStep s = .next (buildStep s) := by simp [coreStep, hp]

theorem coreStep_of_enc {s : State} (hp : s.ph = .enc) : coreStep s = .next (encStep s) := by simp [coreStep, hp]

theorem coreStep_of_dec {s : State} (hp : s.ph = .dec) : coreStep s = decStep s := by simp [coreStep, hp]

/-! ### A phase step by the position of IDX -/

/-- Where a consuming phase that takes n items stands: an item is at hand, all are taken, or it waits. -/
theorem State.position_cases (s : State) (n : Nat) :
    (∃ b rest, s.idx < n ∧ s.inp = b :: rest) ∨ s.idx = n ∨ (s.idx ≠ n ∧ (s.idx < n → s.inp = [])) := by
  cases hin : s.inp with
  | nil => exact .inr ((eq_or_ne s.idx n).imp_right fun hne => ⟨hne, fun _ => rfl⟩)
  | cons b rest =>
    obtain hlt | heq | hgt := Nat.lt_trichotomy s.idx n
    · exact .inl ⟨b, rest, hlt, rfl⟩
    · exact .inr (.inl heq)
    · exact .inr (.inr ⟨hgt.ne', fun hlt => absurd hlt hgt.asymm⟩)

theorem buildStep_of_item {s : State} {b : Byte} {rest : List Byte} (hi : s.idx < 32) (hin : s.inp = b :: rest) :
    buildStep s = buildFill b rest s := by simp [buildStep, hi, hin]

theorem buildStep_of_full {s : State} (hi : s.idx = 32) : buildStep s = buildCheck s := by simp [buildStep, hi]

theorem buildStep_of_waits {s : State} (hi : s.idx ≠ 32) (hin : s.idx < 32 → s.inp = []) : buildStep s = s := by
  by_cases hlt : s.idx < 32
  · simp [buildStep, hlt, hin hlt]
  · simp [buildStep, hlt, hi]

theorem encStep_of_item {s : State} {b : Byte} {rest : List Byte} (hi : s.idx < s.len) (hin : s.inp = b :: rest) :
    encStep s = encodeByte b rest s := by simp [encStep, hi, hin]

theorem encStep_of_full {s : State} (hi : s.idx = s.len) : encStep s = encodeFinish s := by simp [encStep, hi]

theorem encStep_of_waits {s : State} (hi : s.idx ≠ s.len) (hin : s.idx < s.len → s.inp = []) : encStep s = s := by
  by_cases hlt : s.idx < s.len
  · simp [encStep, hlt, hin hlt]
  · simp [encStep, hlt, hi]

theorem decStep_of_item {s : State} {c : Byte} {rest : List Byte} (hi : s.idx < s.len) (hin : s.inp = c :: rest) :
    decStep s = decodeSymbol c rest s := by simp [decStep, hi, hin]

theorem decStep_of_full {s : State} (hi : s.idx = s.len) : decStep s = .next (decodeFinish s) := by simp [decStep, hi]

theorem decStep_of_waits {s : State} (hi : s.idx ≠ s.len) (hin : s.idx < s.len → s.inp = []) : decStep s = .next s := by
  by_cases hlt : s.idx < s.len
  · simp [decStep, hlt, hin hlt]
  · simp [decStep, hlt, hi]

theorem decodeSymbol_of_sentinel {s : State} {c : Byte} (hs : decRead s.alpha c = sentinel) (rest : List Byte) :
    decodeSymbol c rest s = .next (decodeInvalid c rest s) := by simp [decodeSymbol, hs]

theorem decodeSymbol_of_value {s : State} {c : Byte} (hs : decRead s.alpha c ≠ sentinel)
    (hv : (decRead s.alpha c).toNat < 32) (rest : List Byte) :
    decodeSymbol c rest s = .next (decodeValue (decRead s.alpha c).toNat rest s) := by simp [decodeSymbol, hs, hv]

/-! ### Register writes -/

theorem step_of_write {s : State} {reg data : Nat} {rest : List HostEvent} (h : s.nextEvent (.write reg data) rest) :
    step s = writeReg reg data { s with host := rest } := step_of_event h.1 h.2

theorem writeReg_cmd_of_idle {s : State} (hb : s.busy = false) (data : Nat) :
    writeReg 0 data s = acceptCommand (BitVec.ofNat 8 data) s := by simp [writeReg, hb]

theorem writeReg_cmd_of_busy {s : State} (hb : s.busy = true) (data : Nat) : writeReg 0 data s = .next s := by
  simp [writeReg, hb]

theorem writeReg_len (s : State) (data : Nat) : writeReg 2 data s = .next (s.writeLen data) := rfl

/-- A write to any register but CMD and LEN has no effect (10_state.md R39). -/
theorem writeReg_of_readOnly (s : State) {reg : Nat} (h0 : reg ≠ 0) (h2 : reg ≠ 2) (data : Nat) :
    writeReg reg data s = .next s := by
  unfold writeReg
  split
  · exact absurd rfl h0
  · exact absurd rfl h2
  · rfl

theorem lenBits_of_le {w v : Nat} (h : v ≤ maxLen w) : lenBits w v = v :=
  Nat.mod_eq_of_lt (by have := Nat.two_pow_pos w; unfold maxLen at h; omega)

theorem writeLen_of_idle {s : State} (hb : s.busy = false) {data : Nat} (hd : data ≤ maxLen s.lenW) :
    s.writeLen data = { s with len := data } := by simp [State.writeLen, hb, lenBits_of_le hd]

theorem writeLen_of_busy {s : State} (hb : s.busy = true) (data : Nat) : s.writeLen data = s := by
  simp [State.writeLen, hb]

end Sys2Proof.Machine
end

section
/-! The invariants of State.Inv through one step (10_state.md R24, R26, R28, R29, R38): Laws/Invariant.lean says it of
the parts of a step, here are the host's part and the step itself. -/

namespace Sys2Proof.Machine

/-- Acceptance keeps the invariants: a command by its start rule, any other word by taking ILLEGAL_CMD (R173, R188). -/
theorem acceptCommand_inv {w : Byte} {s t : State} (h : s.Inv) (ht : acceptCommand w s = .next t) : t.Inv := by
  obtain ⟨_, -, hexec⟩ | ⟨_, -, rfl⟩ := acceptCommand_next_cases ht
  · exact exec_inv h hexec
  · exact raise_inv (u := s.prologue) (r := .illegalCmd) h rfl h.alphabet h.len_fits (by simp) (by simp)
      (by simp [FaultReport.offset]) (by simp [FaultReport.kind])

/-- While BUSY is 0 any LEN that fits keeps the invariants: the bounds that mention LEN are those of a running
operation. -/
theorem State.Inv.of_len {s : State} (h : s.Inv) (hb : s.busy = false) {n : Nat} (hn : n ≤ maxLen s.lenW) :
    State.Inv { s with len := n } :=
  State.Inv.of_idle h ((not_busy_iff s).1 hb) rfl h.alphabet h.one_flag.2.2 h.err_kind h.err_clear h.no_reserved_kind hn
    h.result_fits h.errOffset_fits h.idx_fits h.outcnt_fits

/-- Every host event keeps the invariants (R220). -/
theorem hostStep_inv {e : HostEvent} {s t : State} (h : s.Inv) (ht : hostStep e s = .next t) : t.Inv := by
  obtain ⟨_, -, -, hcmd⟩ | ⟨data, -, hb, rfl⟩ | ⟨-, rfl⟩ | ⟨-, hcore⟩ | ⟨inp, r, rfl⟩ := hostStep_next_cases ht
  · exact acceptCommand_inv h hcmd
  · exact h.of_len hb (lenBits_le _ data)
  · exact resetCore_inv h.width
  · exact coreStep_inv h hcore
  · exact h.of_host inp r s.host s.rst

/-- Settles O3, by who acts in the step: the reset, the CORE or the host. -/
theorem everyStepKeepsTheInvariants : Obligations.EveryStepKeepsTheInvariants := by
  intro s t h hst
  obtain ⟨-, rfl⟩ | ⟨-, -, hcore⟩ | ⟨_, rest, -, -, hhost⟩ := step_next_cases hst
  · exact resetStep_inv h.width
  · exact coreStep_inv h hcore
  · exact hostStep_inv (h.of_host s.inp s.outReady rest s.rst) hhost

/-- The state after reset is what a reset step makes of itself (R42, R210). -/
theorem State.resetCore_resetAt (w : Nat) : (State.resetAt w).resetCore = State.resetAt w := rfl

/-- Settles O2: the state after reset is one a reset step leaves. -/
theorem resetMeetsTheInvariants : Obligations.ResetMeetsTheInvariants := by
  intro w hw
  rw [← State.resetCore_resetAt]
  exact resetCore_inv hw

end Sys2Proof.Machine
end

section
/-! The host registers (10_state.md section 6) and the values after reset (R42). -/

namespace Sys2Proof.Machine

/-- Settles O1: the tables by the laws of the built-in alphabet, STATUS by its own law, the rest by the definition. -/
theorem resetGivesEveryComponentItsValue : Obligations.ResetGivesEveryComponentItsValue := by
  intro w
  have hwf := rom_wf .zbase32
  refine ⟨fun _ => rfl, hwf.inverse_hit, hwf.inverse_miss, rfl, rfl, rfl, rfl, rfl, Table.get_const 32 0, rfl, rfl,
    State.resetAt_status w, fun reg => ?_, rfl, rfl, rfl, rfl⟩
  match reg with
  | 0 | 2 | 3 | 4 | 5 => rfl
  | 1 => rw [State.readReg, State.resetAt_status]; rfl
  | _ + 6 => rfl

/-- Settles O7: the bytes written out are the codes of the strings. -/
theorem romHoldsTheThreeStrings : Obligations.RomHoldsTheThreeStrings :=
  ⟨by decide, rfl, by decide, rfl, by decide, rfl⟩

theorem State.readReg_reserved (s : State) {reg : Nat} (h : 6 ≤ reg) : s.readReg reg = 0 := by
  obtain ⟨n, rfl⟩ := Nat.exists_eq_add_of_le' h
  rfl

/-- Settles O16: the reads by the register's number, the writes by writeReg_of_readOnly. -/
theorem reservedAndReadOnlyRegisters : Obligations.ReservedAndReadOnlyRegisters := by
  refine ⟨fun _ => ⟨rfl, rfl, rfl⟩, ?_, fun s reg data rest h0 h2 he => ?_⟩
  · rintro s reg (rfl | hreg)
    · rfl
    · exact s.readReg_reserved hreg
  · rw [step_of_write he, writeReg_of_readOnly _ h0 h2]

/-- Settles O17, by BUSY. -/
theorem lenWriteTakesTheValueWhenIdle : Obligations.LenWriteTakesTheValueWhenIdle := by
  intro s data rest he hd
  have hstep : step s = .next (State.writeLen { s with host := rest } data) := step_of_write he
  refine ⟨fun hb => ?_, fun hb => ?_, rfl⟩
  · rw [hstep, writeLen_of_idle (s := { s with host := rest }) hb hd]
  · rw [hstep, writeLen_of_busy (s := { s with host := rest }) hb]

/-- STATUS as a number (R33): the three flags and ERR_KIND each at its own weight. -/
theorem State.status_toNat (s : State) :
    s.status.toNat = s.busy.toNat + 2 * s.done.toNat + 4 * s.err.toNat + 16 * s.errKind.code.toNat := by
  unfold State.status
  generalize s.errKind.code = code, s.err = err, s.done = done, s.busy = busy
  revert code err done busy
  decide

/-- Bit 3 of STATUS is reserved (R33). -/
theorem State.status_bit3 (s : State) : s.status.extractLsb' 3 1 = 0#1 := by
  unfold State.status
  generalize s.errKind.code = code, s.err = err, s.done = done, s.busy = busy
  revert code err done busy
  decide

/-- Settles O18: BUSY is PH (R31), the other fields stand as they are. -/
theorem statusRegisterFields : Obligations.StatusRegisterFields := by
  intro s
  refine ⟨?_, s.status_bit3⟩
  rw [State.readReg, s.status_toNat]
  by_cases hp : s.ph = .idle
  · simp [hp, not_busy_of_ph hp]
  · simp [hp, busy_of_ph hp]

end Sys2Proof.Machine
end

section
/-! What follows for DEC_LUT from the alphabet invariants (10_state.md R24 b, c, d). -/

namespace Sys2Proof.Machine

/-- Counting the entries of a table that pass a test is counting their positions. -/
theorem Table.length_filter_entries {n : Nat} (t : Table n) (p : Byte → Bool) :
    (t.entries.filter p).length = (Finset.univ.filter fun i : Fin n => p (t.get i) = true).card := by
  have hentries : t.entries = (List.finRange n).map t.get := by
    apply List.ext_getElem (by simp)
    intro k _ _
    simp [Table.get]
  simp only [hentries, List.filter_map, List.length_map, Finset.card_def, Finset.filter_val, Fin.univ_def,
    Multiset.filter_coe, Multiset.coe_card, Function.comp_def, Bool.decide_eq_true]

/-- Under R24 the entry of a byte is not the sentinel exactly when the byte is a symbol. -/
theorem Alphabet.Wf.decRead_ne_sentinel_iff {a : Alphabet} (h : a.Wf) (b : Byte) :
    decRead a b ≠ sentinel ↔ ∃ i, a.enc.get i = b := by
  constructor
  · intro hb
    by_contra hno
    exact hb (h.inverse_miss b fun i hi => hno ⟨i, hi⟩)
  · rintro ⟨i, rfl⟩
    exact h.decRead_enc_ne i

/-- DEC_LUT maps exactly the 32 symbols: the positions that do not hold the sentinel are the image of ENC_LUT, which is
injective. -/
theorem Alphabet.Wf.count_decode_entries {a : Alphabet} (h : a.Wf) :
    (a.dec.entries.filter (fun e => e != sentinel)).length = 32 := by
  have hset : (Finset.univ.filter fun b : Fin 256 => (a.dec.get b != sentinel) = true) =
      Finset.univ.image fun i => (a.enc.get i).toFin := by
    ext b
    simpa [decRead, ← BitVec.toFin_inj] using h.decRead_ne_sentinel_iff (BitVec.ofFin b)
  have hinj : Function.Injective fun i => (a.enc.get i).toFin := fun i j hij => h.distinct i j (BitVec.toFin_inj.1 hij)
  rw [Table.length_filter_entries, hset, Finset.card_image_of_injective _ hinj, Finset.card_fin]

/-- No symbol lies outside 32 to 126, so no entry there is one of a symbol. -/
theorem Alphabet.Wf.decRead_unprintable {a : Alphabet} (h : a.Wf) {b : Byte} (hb : b.toNat ≤ 31 ∨ 127 ≤ b.toNat) :
    decRead a b = sentinel := by
  apply h.inverse_miss
  rintro i rfl
  have := h.printable i
  omega

/-- ENC_LUT leads back from the entry of a symbol to the symbol. -/
theorem Alphabet.Wf.encRead_decRead {a : Alphabet} (h : a.Wf) {b : Byte} (hb : decRead a b ≠ sentinel) :
    encRead a (BitVec.ofNat 5 (decRead a b).toNat) = b := by
  obtain hmiss | ⟨i, rfl, hhit⟩ := h.decRead_cases b
  · exact absurd hmiss hb
  · rw [hhit, encRead]
    congr 1
    ext
    simp

/-- Settles O6: one lemma for each of the three consequences. -/
theorem decodeTableIsTheInverse : Obligations.DecodeTableIsTheInverse := fun _ h =>
  ⟨h.count_decode_entries, fun _ => h.decRead_unprintable, fun _ hb => ⟨h.decRead_lt hb, h.encRead_decRead hb⟩⟩

end Sys2Proof.Machine
end

section
/-! When the active alphabet changes (10_state.md R44): what each part of a step does to it. -/

namespace Sys2Proof.Machine

/-- BUILD starts without a look at the active alphabet (R101). -/
theorem buildStart_alpha (o : BitOrder) (s : State) : (buildStart o s).alpha = s.alpha := by
  obtain ⟨-, start⟩ | ⟨-, fault⟩ := buildStart_cases o s
  · rw [start]; rfl
  · rw [fault]; rfl

/-- Acceptance changes the alphabet in LOADB only. -/
theorem exec_alpha {i : Instr} {s t : State} (h : exec i s = .next t) :
    t.alpha = s.alpha ∨ ∃ k, i = loadbCommand k ∧ t.alpha = rom k := by
  cases i with
  | loadbZbase32 => obtain rfl := Host.Outcome.next.inj h; exact .inr ⟨.zbase32, rfl, rfl⟩
  | loadbRfc4648 => obtain rfl := Host.Outcome.next.inj h; exact .inr ⟨.rfc4648, rfl, rfl⟩
  | loadbBech32 => obtain rfl := Host.Outcome.next.inj h; exact .inr ⟨.bech32, rfl, rfl⟩
  | buildNormal => obtain rfl := Host.Outcome.next.inj h; exact .inl (buildStart_alpha .normal s)
  | buildInverted => obtain rfl := Host.Outcome.next.inj h; exact .inl (buildStart_alpha .inverted s)
  | clr | declen | decode => obtain rfl := Host.Outcome.next.inj h; exact .inl rfl
  | enclen | encode =>
    simp only [exec, execEnclen, execEncode] at h
    split at h <;> obtain rfl := Host.Outcome.next.inj h <;> exact .inl rfl

theorem acceptCommand_alpha {w : Byte} {s t : State} (h : acceptCommand w s = .next t) :
    t.alpha = s.alpha ∨ ∃ k, decode w = .command (loadbCommand k) ∧ t.alpha = rom k := by
  obtain ⟨i, hd, hexec⟩ | ⟨_, -, rfl⟩ := acceptCommand_next_cases h
  · exact (exec_alpha hexec).imp_right fun ⟨k, hi, ha⟩ => ⟨k, hi ▸ hd, ha⟩
  · exact .inl rfl

/-- BUILD changes the alphabet in its commit only (R103). -/
theorem buildStep_alpha (s : State) :
    (buildStep s).alpha = s.alpha ∨
    (s.idx = 32 ∧ (buildStep s).done = true ∧ symbolFault s.stage.entries = none ∧
      (buildStep s).alpha = alphabetOf s.stage s.ordLatch) := by
  obtain hold | ⟨_, _, -, -, fill⟩ | ⟨hi, check⟩ := buildStep_cases s
  · rw [hold]; exact .inl rfl
  · rw [fill]; exact .inl rfl
  · rw [check]
    obtain ⟨_, -, fault⟩ | ⟨hpass, commit⟩ := buildCheck_cases s
    · rw [fault]; exact .inl rfl
    · rw [commit]; exact .inr ⟨hi, rfl, hpass, rfl⟩

theorem encStep_alpha (s : State) : (encStep s).alpha = s.alpha := by
  obtain hold | ⟨b, rest, -, -, byte⟩ | ⟨-, finish⟩ := encStep_cases s
  · rw [hold]
  · rw [byte]
    obtain hold | move := encodeByte_cases b rest s
    · rw [hold]
    · rw [move]
  · rw [finish]
    obtain hold | complete := encodeFinish_cases s
    · rw [hold]
    · rw [complete]

theorem decStep_alpha {s t : State} (h : decStep s = .next t) : t.alpha = s.alpha := by
  obtain hold | ⟨c, rest, -, -, symbol⟩ | ⟨-, finish⟩ := decStep_cases s
  · obtain rfl := Host.Outcome.next.inj (hold.symm.trans h)
    rfl
  · obtain ⟨-, rfl⟩ | ⟨-, -, rfl⟩ := decodeSymbol_next (symbol ▸ h)
    · rfl
    · obtain hold | move := decodeValue_cases (decRead s.alpha c).toNat rest s
      · rw [hold]
      · rw [move]
  · obtain rfl := Host.Outcome.next.inj (finish.symm.trans h)
    rfl

/-- The CORE's own step changes the alphabet in the commit of a BUILD only, and then to 32 distinct printable symbols. -/
theorem coreStep_alpha {s t : State} (h : coreStep s = .next t) :
    t.alpha = s.alpha ∨
    (s.ph = .build ∧ s.idx = 32 ∧ t.done = true ∧
      (∀ i : Fin 32, 32 ≤ (s.stage.get i).toNat ∧ (s.stage.get i).toNat ≤ 126) ∧
      (∀ i j : Fin 32, s.stage.get i = s.stage.get j → i = j) ∧ t.alpha = alphabetOf s.stage s.ordLatch) := by
  obtain ⟨-, rfl⟩ | ⟨hp, rfl⟩ | ⟨-, rfl⟩ | ⟨-, hdec⟩ := coreStep_next_cases h
  · exact .inl rfl
  · refine (buildStep_alpha s).imp_right fun ⟨hi, hdone, hpass, ha⟩ => ?_
    have hwf := symbolFault_none_wf hpass s.ordLatch
    exact ⟨hp, hi, hdone, hwf.printable, hwf.distinct, ha⟩
  · exact .inl (encStep_alpha s)
  · exact .inl (decStep_alpha hdec)

theorem resetStep_alpha (s : State) : (resetStep s).alpha = rom .zbase32 := by
  unfold resetStep
  cases s.host <;> rfl

/-- Settles O26, by who acts in the step: the reset, the CORE (only a commit can) or the host (only LOADB and rst can). -/
theorem alphabetChangesInThreeEventsOnly : Obligations.AlphabetChangesInThreeEventsOnly := by
  intro s t h hne
  obtain ⟨hr, rfl⟩ | ⟨-, -, hcore⟩ | ⟨e, rest, hr, he, hhost⟩ := step_next_cases h
  · exact .inl ⟨.inl hr, resetStep_alpha s⟩
  · exact .inr (.inr ((coreStep_alpha hcore).resolve_left hne))
  · obtain ⟨data, rfl, hb, hcmd⟩ | ⟨_, -, -, rfl⟩ | ⟨rfl, rfl⟩ | ⟨-, hcore⟩ | ⟨_, _, rfl⟩ := hostStep_next_cases hhost
    · obtain ⟨k, hd, ha⟩ := (acceptCommand_alpha hcmd).resolve_left hne
      exact .inr (.inl ⟨k, data, rest, ⟨hr, he⟩, hb, hd, ha⟩)
    · exact absurd rfl hne
    · exact .inl ⟨.inr ⟨rest, hr, he⟩, rfl⟩
    · exact .inr (.inr ((coreStep_alpha hcore).resolve_left hne))
    · exact absurd rfl hne

end Sys2Proof.Machine
end

section
/-! What the CORE's own step moves over the ports, and the port signals (10_state.md R40, R41; 20_memory.md R65). -/

namespace Sys2Proof.Machine

/-- A step from s to t that has items to put out and would leave left on IN: it does both, or it is held by the sink. -/
def State.Moves (s t : State) (items left : List Byte) : Prop :=
  (s.sinkTakes items = true ∧ t.out = s.out ++ items ∧ t.inp = left) ∨ (s.sinkTakes items = false ∧ t = s)

/-- A step that puts out nothing needs no sink. -/
theorem State.moves_nil {s t : State} {left : List Byte} (hout : t.out = s.out) (hinp : t.inp = left) :
    s.Moves t [] left := .inl ⟨rfl, by simp [hout], hinp⟩

/-- The shape of every step that puts out items: done when the sink takes them, else a hold (44_system.md R177). -/
theorem State.moves_ite {s t : State} {items left : List Byte} (hout : t.out = s.out ++ items) (hinp : t.inp = left) :
    s.Moves (if s.sinkTakes items then t else s) items left := by
  split
  next htakes => exact .inl ⟨htakes, hout, hinp⟩
  next hheld => exact .inr ⟨by simpa using hheld, rfl⟩

theorem encodeByte_moves (b : Byte) (rest : List Byte) (s : State) :
    s.Moves (encodeByte b rest s) (symbolsOf s.alpha (encPack s.alpha.order s.acc.toNat s.pend.toNat b).values) rest :=
  State.moves_ite rfl rfl

theorem encodeFinish_moves (s : State) :
    s.Moves (encodeFinish s) (symbolsOf s.alpha (encLast s.alpha.order s.acc.toNat s.pend.toNat)) s.inp :=
  State.moves_ite rfl rfl

theorem decodeValue_moves (v : Nat) (rest : List Byte) (s : State) :
    s.Moves (decodeValue v rest s) (decUnpack s.alpha.order s.acc.toNat s.pend.toNat v).bytes rest :=
  State.moves_ite rfl rfl

/-- A step that puts out nothing before a ready sink offers nothing. -/
theorem State.offered_eq_nil {s t : State} (h : coreStep { s with outReady := true } = .next t) (hout : t.out = s.out) :
    s.offered = [] := by
  simp [State.offered, h, hout]

theorem State.offered_eq_nil_of_dec {s t : State} (hp : s.ph = .dec) (h : decStep { s with outReady := true } = .next t)
    (hout : t.out = s.out) : s.offered = [] :=
  State.offered_eq_nil (by rw [← h]; exact coreStep_of_dec hp) hout

/-- BUILD puts out nothing. -/
theorem buildStep_out (s : State) : (buildStep s).out = s.out := by
  obtain hold | ⟨_, _, -, -, fill⟩ | ⟨-, check⟩ := buildStep_cases s
  · rw [hold]
  · rw [fill]; rfl
  · rw [check]
    obtain ⟨_, -, fault⟩ | ⟨-, commit⟩ := buildCheck_cases s
    · rw [fault, State.raise_out]
    · rw [commit]

/-- The items on IN after a step that no sink holds: a consuming phase takes the first. -/
def State.leftOnIn (s : State) : List Byte := if s.busy ∧ s.idx < s.len then s.inp.tail else s.inp

theorem State.leftOnIn_of_item {s : State} {b : Byte} {rest : List Byte} (hb : s.ph ≠ .idle) (hi : s.idx < s.len)
    (hin : s.inp = b :: rest) : s.leftOnIn = rest := by simp [State.leftOnIn, busy_of_ph hb, hi, hin]

theorem State.leftOnIn_of_none {s : State} (h : s.idx < s.len → s.inp = []) : s.leftOnIn = s.inp := by
  unfold State.leftOnIn
  split
  · rw [h ‹_ ∧ _›.2]; rfl
  · rfl

theorem buildStep_moves {s : State} (h : s.Inv) (hp : s.ph = .build) : s.Moves (buildStep s) s.offered s.leftOnIn := by
  obtain ⟨hlen, -, -⟩ := h.building hp
  have hoff : s.offered = [] := State.offered_eq_nil (coreStep_of_build hp) (buildStep_out _)
  rw [hoff]
  refine State.moves_nil (buildStep_out s) ?_
  obtain ⟨b, rest, hi, hin⟩ | hi | ⟨hi, hin⟩ := s.position_cases 32
  · rw [buildStep_of_item hi hin, State.leftOnIn_of_item (by simp [hp]) (by omega) hin]; rfl
  · rw [buildStep_of_full hi, State.leftOnIn_of_none (by omega)]
    obtain ⟨_, -, fault⟩ | ⟨-, commit⟩ := buildCheck_cases s
    · rw [fault, State.raise_inp]
    · rw [commit]
  · rw [buildStep_of_waits hi hin, State.leftOnIn_of_none (hlen ▸ hin)]

theorem encStep_moves {s : State} (hp : s.ph = .enc) : s.Moves (encStep s) s.offered s.leftOnIn := by
  obtain ⟨b, rest, hi, hin⟩ | hi | ⟨hi, hin⟩ := s.position_cases s.len
  · rw [encStep_of_item hi hin, State.offered_encodeByte hp hi hin, State.leftOnIn_of_item (by simp [hp]) hi hin]
    exact encodeByte_moves b rest s
  · rw [encStep_of_full hi, State.offered_encodeFinish hp hi, State.leftOnIn_of_none (by omega)]
    exact encodeFinish_moves s
  · have hout : (encStep { s with outReady := true }).out = s.out := by
      rw [encStep_of_waits (s := { s with outReady := true }) hi hin]
    rw [encStep_of_waits hi hin, State.leftOnIn_of_none hin, State.offered_eq_nil (coreStep_of_enc hp) hout]
    exact State.moves_nil rfl rfl

theorem decStep_moves {s t : State} (hp : s.ph = .dec) (ht : decStep s = .next t) : s.Moves t s.offered s.leftOnIn := by
  obtain ⟨c, rest, hi, hin⟩ | hi | ⟨hi, hin⟩ := s.position_cases s.len
  · rw [State.leftOnIn_of_item (by simp [hp]) hi hin]
    rw [decStep_of_item hi hin] at ht
    obtain ⟨hs, rfl⟩ | ⟨hs, hv, rfl⟩ := decodeSymbol_next ht
    · rw [State.offered_decodeInvalid hp hi hin hs]
      exact State.moves_nil rfl rfl
    · rw [State.offered_decodeValue hp hi hin hs hv]
      exact decodeValue_moves _ rest s
  · obtain rfl := Host.Outcome.next.inj ((decStep_of_full hi).symm.trans ht)
    rw [State.leftOnIn_of_none (by omega), State.offered_eq_nil_of_dec hp (decStep_of_full hi) rfl]
    exact State.moves_nil rfl rfl
  · obtain rfl := Host.Outcome.next.inj ((decStep_of_waits hi hin).symm.trans ht)
    rw [State.leftOnIn_of_none hin, State.offered_eq_nil_of_dec hp (decStep_of_waits hi hin) rfl]
    exact State.moves_nil rfl rfl

/-- The CORE's own step puts out what it offers and takes the item it is ready for, or the sink holds it. -/
theorem coreStep_moves {s t : State} (h : s.Inv) (ht : coreStep s = .next t) : s.Moves t s.offered s.leftOnIn := by
  obtain ⟨hp, rfl⟩ | ⟨hp, rfl⟩ | ⟨hp, rfl⟩ | ⟨hp, hdec⟩ := coreStep_next_cases ht
  · rw [State.offered_eq_nil (coreStep_of_idle hp) rfl]
    exact State.moves_nil rfl (by simp [State.leftOnIn, not_busy_of_ph hp])
  · exact buildStep_moves h hp
  · exact encStep_moves hp
  · exact decStep_moves hp hdec

/-- The sink lets the next step through exactly when it is ready or nothing is offered. -/
theorem State.sinkTakes_offered_iff (s : State) :
    s.sinkTakes s.offered = true ↔ s.outValid = false ∨ s.outReady = true := by
  simp [State.sinkTakes, State.outValid]

theorem State.leftOnIn_ne_iff (s : State) : s.leftOnIn ≠ s.inp ↔ s.inp ≠ [] ∧ s.busy = true ∧ s.idx < s.len := by
  unfold State.leftOnIn
  split
  · cases hin : s.inp <;> simp [*]
  · simp_all

/-- An item leaves IN exactly when one is offered and in_ready is 1 (R65). -/
theorem State.Moves.inp_ne_iff {s t : State} (h : s.Moves t s.offered s.leftOnIn) :
    t.inp ≠ s.inp ↔ s.inp ≠ [] ∧ s.inReady = true := by
  rw [State.inReady_iff, ← State.sinkTakes_offered_iff]
  obtain ⟨htakes, -, hinp⟩ | ⟨hheld, rfl⟩ := h
  · simp [hinp, s.leftOnIn_ne_iff, htakes]
  · simp [hheld]

/-- Items appear on OUT exactly when out_valid and the sink's readiness are both 1 (R65). -/
theorem State.Moves.out_ne_iff {s t : State} {left : List Byte} (h : s.Moves t s.offered left) :
    t.out ≠ s.out ↔ s.outValid = true ∧ s.outReady = true := by
  have htakes := s.sinkTakes_offered_iff
  obtain ⟨hmoved, hout, -⟩ | ⟨hheld, hold⟩ := h
  · rw [hout, Ne, List.append_right_eq_self, ← Ne, ← State.outValid_iff]
    have := htakes.1 hmoved
    exact ⟨fun hv => ⟨hv, this.resolve_left (by simp [hv])⟩, And.left⟩
  · have hdown : s.outReady = false := by simpa [hheld] using mt (fun hr => htakes.2 (.inr hr))
    simp [hold, hdown]

/-- out_data is the first item a ready sink takes. -/
theorem State.Moves.outData_first {s t : State} {left : List Byte} (h : s.Moves t s.offered left) {b : Byte}
    (hb : s.outData = some b) (hr : s.outReady = true) : (s.out ++ [b]) <+: t.out := by
  obtain ⟨-, hout, -⟩ | ⟨hheld, -⟩ := h
  · obtain ⟨items, hitems⟩ : ∃ items, s.offered = b :: items := List.head?_eq_some_iff.1 hb
    exact ⟨items, by simp [hout, hitems]⟩
  · simp [s.sinkTakes_offered_iff.2 (.inr hr)] at hheld

/-- Settles O19, from what the CORE's own step moves. -/
theorem portSignalsFollowTheState : Obligations.PortSignalsFollowTheState := by
  refine fun s => ⟨fun hready => ?_, rfl, rfl, fun h t ht => ?_⟩
  · obtain ⟨hb, hi, -⟩ := s.inReady_iff.1 hready
    exact ⟨(busy_iff s).1 hb, hi⟩
  · have hmoves := coreStep_moves h ht
    exact ⟨hmoves.inp_ne_iff, hmoves.out_ne_iff, fun _ => hmoves.outData_first⟩

end Sys2Proof.Machine
end

section
/-! What ran before an operation does not show in it (10_state.md R20, R27; 44_system.md R173). Acceptance sets every
component it does not take from the alphabet, LEN or the host, but STAGE, ORD_LATCH and RESULT: two runs that differ in
these three only are followed step by step. -/

namespace Sys2Proof.Machine

/-! ### The three components left over from the operations before -/

/-- s with other values in STAGE, ORD_LATCH and RESULT. -/
def State.overlay (s : State) (g : Table 32) (o : BitOrder) (m : Nat) : State :=
  { s with stage := g, ordLatch := o, result := m }

@[simp] theorem State.overlay_stage (s : State) (g : Table 32) (o : BitOrder) (m : Nat) :
    (s.overlay g o m).stage = g := rfl

@[simp] theorem State.overlay_ordLatch (s : State) (g : Table 32) (o : BitOrder) (m : Nat) :
    (s.overlay g o m).ordLatch = o := rfl

/-- The values g, o and m can stand in STAGE, ORD_LATCH and RESULT of s unseen: a BUILD under way reads ORD_LATCH and the
entries of STAGE it has filled, the host of an idle CORE reads RESULT. -/
structure State.Hides (s : State) (g : Table 32) (o : BitOrder) (m : Nat) : Prop where
  latched : s.ph = .build → o = s.ordLatch
  staged : s.ph = .build → ∀ i : Fin 32, i.val < s.idx → g.get i = s.stage.get i
  completed : s.ph = .idle → m = s.result

section
variable {s t u : State} {g : Table 32} {o : BitOrder} {m : Nat}

/-- u is s but for values in STAGE, ORD_LATCH and RESULT that s hides. -/
def State.Twin (s u : State) : Prop := ∃ g o m, s.Hides g o m ∧ u = s.overlay g o m

theorem State.Twin.refl (s : State) : s.Twin s :=
  ⟨s.stage, s.ordLatch, s.result, ⟨fun _ => rfl, fun _ _ _ => rfl, fun _ => rfl⟩, rfl⟩

/-- Steps of twins that branch on the same condition. -/
theorem State.Twin.ite {c : Prop} [Decidable c] {s' u' : State} (h : s.Twin u) (h' : s'.Twin u') :
    State.Twin (if c then s else s') (if c then u else u') := by
  split
  · exact h
  · exact h'

/-- An idle CORE hides STAGE and ORD_LATCH. -/
theorem State.twin_overlay_of_idle (hp : s.ph = .idle) :
    s.Twin (s.overlay g o s.result) :=
  ⟨g, o, s.result, ⟨by simp [hp], by simp [hp], fun _ => rfl⟩, rfl⟩

/-- ENCODE and DECODE hide all three. -/
theorem State.twin_of_running (hp : s.ph = .enc ∨ s.ph = .dec)
    (hu : u = s.overlay g o m) : s.Twin u :=
  ⟨g, o, m, by obtain hp | hp := hp <;> constructor <;> simp [hp], hu⟩

/-- done() writes RESULT (R174). -/
theorem State.complete_twin (s : State) (k : Nat) :
    (s.complete k).Twin ((s.overlay g o m).complete k) :=
  State.twin_overlay_of_idle (s := s.complete k) rfl

/-- Taking a fault writes RESULT (R190). -/
theorem State.raise_twin (s : State) (r : FaultReport) :
    (s.raise r).Twin ((s.overlay g o m).raise r) :=
  State.twin_overlay_of_idle (s := s.raise r) rfl

/-! ### Acceptance -/

/-- s and u agree on all that acceptance takes over: the alphabet, LEN, LEN_W and what the host holds. -/
structure State.SameSetting (s u : State) : Prop where
  ph : s.ph = u.ph
  alpha : s.alpha = u.alpha
  len : s.len = u.len
  lenW : s.lenW = u.lenW
  inp : s.inp = u.inp
  out : s.out = u.out
  outReady : s.outReady = u.outReady
  rst : s.rst = u.rst
  host : s.host = u.host

theorem State.sameSetting_overlay (s : State) : s.SameSetting (s.overlay g o m) := by
  constructor <;> rfl

/-- After the prologue (R173) only the three components can differ. -/
theorem State.SameSetting.prologue_eq (h : s.SameSetting u) :
    u.prologue = s.prologue.overlay u.stage u.ordLatch u.result := by
  obtain ⟨hph, halpha, hlen, hlenW, hinp, hout, hsink, hrst, hhost⟩ := h
  cases s; cases u
  simp_all [State.prologue, State.clearStatus, State.overlay]

theorem loadBuiltin_twin (h : s.SameSetting u) (k : Builtin) : (loadBuiltin k s).Twin (loadBuiltin k u) := by
  rw [loadBuiltin, loadBuiltin, h.prologue_eq]
  exact State.complete_twin { s.prologue with alpha := rom k } 0

/-- A BUILD that starts sets ORD_LATCH and has filled no entry of STAGE (R101). -/
theorem buildStart_twin (h : s.SameSetting u) (o : BitOrder) : (buildStart o s).Twin (buildStart o u) := by
  simp only [buildStart, ← h.len, h.prologue_eq]
  split
  · exact ⟨u.stage, o, u.result, ⟨fun _ => rfl, fun _ i hi => absurd hi (Nat.not_lt_zero _), nofun⟩, rfl⟩
  · exact State.raise_twin _ _

/-- Every command answers two CORES that agree on the setting with twins. -/
theorem exec_twin (h : s.SameSetting u) (i : Instr) :
    ∃ t v, exec i s = .next t ∧ exec i u = .next v ∧ t.Twin v := by
  have done_twin (k : Nat) : (s.prologue.complete k).Twin (u.prologue.complete k) := by
    rw [h.prologue_eq]; exact State.complete_twin _ k
  have fault_twin (r : FaultReport) : (s.prologue.raise r).Twin (u.prologue.raise r) := by
    rw [h.prologue_eq]; exact State.raise_twin _ r
  have run_twin {p : Phase} (hp : p = .enc ∨ p = .dec) :
      State.Twin { s.prologue with ph := p } { u.prologue with ph := p } := by
    rw [h.prologue_eq]; exact State.twin_of_running hp rfl
  cases i with
  | clr => exact ⟨_, _, rfl, rfl, done_twin 0⟩
  | loadbZbase32 => exact ⟨_, _, rfl, rfl, loadBuiltin_twin h .zbase32⟩
  | loadbRfc4648 => exact ⟨_, _, rfl, rfl, loadBuiltin_twin h .rfc4648⟩
  | loadbBech32 => exact ⟨_, _, rfl, rfl, loadBuiltin_twin h .bech32⟩
  | buildNormal => exact ⟨_, _, rfl, rfl, buildStart_twin h .normal⟩
  | buildInverted => exact ⟨_, _, rfl, rfl, buildStart_twin h .inverted⟩
  | enclen =>
    simp only [exec, execEnclen, ← h.len, ← h.lenW]
    split
    · exact ⟨_, _, rfl, rfl, done_twin _⟩
    · exact ⟨_, _, rfl, rfl, fault_twin .lenOverflow⟩
  | declen => exact ⟨_, _, rfl, by rw [exec, execDeclen, ← h.len], done_twin _⟩
  | encode =>
    simp only [exec, execEncode, ← h.len, ← h.lenW]
    split
    · exact ⟨_, _, rfl, rfl, run_twin (.inl rfl)⟩
    · exact ⟨_, _, rfl, rfl, fault_twin .lenOverflow⟩
  | decode => exact ⟨_, _, rfl, rfl, run_twin (.inr rfl)⟩

theorem acceptCommand_twin (h : s.SameSetting u) (w : Byte) :
    ∃ t v, acceptCommand w s = .next t ∧ acceptCommand w u = .next v ∧ t.Twin v := by
  unfold acceptCommand
  cases decode w with
  | command i => exact exec_twin h i
  | illegal _ => exact ⟨_, _, rfl, rfl, by rw [h.prologue_eq]; exact State.raise_twin _ _⟩

/-! ### The CORE's own steps -/

/-- The fill step stores the same item in both STAGEs. -/
theorem buildFill_twin (h : s.Hides g o m) (hp : s.ph = .build)
    (b : Byte) (rest : List Byte) : (buildFill b rest s).Twin (buildFill b rest (s.overlay g o m)) := by
  refine ⟨g.set s.idx b, o, m, ⟨h.latched, fun _ i hlt => ?_, h.completed⟩, rfl⟩
  show (g.set s.idx b).get i = (s.stage.set s.idx b).get i
  obtain hlt | heq := Nat.lt_succ_iff_lt_or_eq.1 (show i.val < s.idx + 1 from hlt)
  · rw [Table.get_set_other _ _ _ _ (by omega), Table.get_set_other _ _ _ _ (by omega), h.staged hp i hlt]
  · rw [← heq, Table.get_set_same, Table.get_set_same]

/-- The check step finds STAGE full, so it finds the same 32 items. -/
theorem buildCheck_twin (h : s.Hides g o m) (hp : s.ph = .build)
    (hi : s.idx = 32) : (buildCheck s).Twin (buildCheck (s.overlay g o m)) := by
  obtain rfl : o = s.ordLatch := h.latched hp
  obtain rfl : g = s.stage := Table.ext_get fun i => h.staged hp i (by omega)
  simp only [buildCheck, State.overlay_stage, State.overlay_ordLatch]
  split
  · exact State.raise_twin _ _
  · exact State.complete_twin { s with alpha := alphabetOf s.stage s.ordLatch } 0

theorem buildStep_twin (h : s.Hides g o m) (hp : s.ph = .build) :
    (buildStep s).Twin (buildStep (s.overlay g o m)) := by
  obtain ⟨b, rest, hi, hin⟩ | hi | ⟨hi, hin⟩ := s.position_cases 32
  · rw [buildStep_of_item hi hin, buildStep_of_item (s := s.overlay g o m) hi hin]
    exact buildFill_twin h hp b rest
  · rw [buildStep_of_full hi, buildStep_of_full (s := s.overlay g o m) hi]
    exact buildCheck_twin h hp hi
  · rw [buildStep_of_waits hi hin, buildStep_of_waits (s := s.overlay g o m) hi hin]
    exact ⟨g, o, m, h, rfl⟩

/-- What ENCODE computes it takes from the alphabet, ACC, PEND and IN; twins share all four. -/
theorem encodeByte_twin (hp : s.ph = .enc) (b : Byte) (rest : List Byte) :
    (encodeByte b rest s).Twin (encodeByte b rest (s.overlay g o m)) :=
  State.Twin.ite (State.twin_of_running (.inl hp) rfl) (State.twin_of_running (.inl hp) rfl)

theorem encodeFinish_twin (hp : s.ph = .enc) :
    (encodeFinish s).Twin (encodeFinish (s.overlay g o m)) :=
  State.Twin.ite (State.complete_twin (s.putOut _) _) (State.twin_of_running (.inl hp) rfl)

theorem decodeValue_twin (hp : s.ph = .dec) (v : Nat) (rest : List Byte) :
    (decodeValue v rest s).Twin (decodeValue v rest (s.overlay g o m)) :=
  State.Twin.ite (State.twin_of_running (.inr hp) rfl) (State.twin_of_running (.inr hp) rfl)

theorem encStep_twin (hp : s.ph = .enc) :
    (encStep s).Twin (encStep (s.overlay g o m)) := by
  obtain ⟨b, rest, hi, hin⟩ | hi | ⟨hi, hin⟩ := s.position_cases s.len
  · rw [encStep_of_item hi hin, encStep_of_item (s := s.overlay g o m) hi hin]
    exact encodeByte_twin hp b rest
  · rw [encStep_of_full hi, encStep_of_full (s := s.overlay g o m) hi]
    exact encodeFinish_twin hp
  · rw [encStep_of_waits hi hin, encStep_of_waits (s := s.overlay g o m) hi hin]
    exact State.twin_of_running (.inl hp) rfl

theorem decodeSymbol_twin (hp : s.ph = .dec) {c : Byte} {rest : List Byte}
    (ht : decodeSymbol c rest s = .next t) : ∃ v, decodeSymbol c rest (s.overlay g o m) = .next v ∧ t.Twin v := by
  obtain ⟨hs, rfl⟩ | ⟨hs, hv, rfl⟩ := decodeSymbol_next ht
  · exact ⟨_, decodeSymbol_of_sentinel (s := s.overlay g o m) hs rest, State.raise_twin { s with inp := rest } _⟩
  · exact ⟨_, decodeSymbol_of_value (s := s.overlay g o m) hs hv rest, decodeValue_twin hp _ rest⟩

theorem decStep_twin (hp : s.ph = .dec) (ht : decStep s = .next t) :
    ∃ v, decStep (s.overlay g o m) = .next v ∧ t.Twin v := by
  obtain ⟨c, rest, hi, hin⟩ | hi | ⟨hi, hin⟩ := s.position_cases s.len
  · rw [decStep_of_item hi hin] at ht
    rw [decStep_of_item (s := s.overlay g o m) hi hin]
    exact decodeSymbol_twin hp ht
  · obtain rfl := Host.Outcome.next.inj ((decStep_of_full hi).symm.trans ht)
    exact ⟨_, decStep_of_full (s := s.overlay g o m) hi, State.complete_twin s s.outcnt⟩
  · obtain rfl := Host.Outcome.next.inj ((decStep_of_waits hi hin).symm.trans ht)
    exact ⟨_, decStep_of_waits (s := s.overlay g o m) hi hin, State.twin_of_running (.inr hp) rfl⟩

/-- Twins take their own step to twins, in every phase. -/
theorem coreStep_twin (h : s.Twin u) (ht : coreStep s = .next t) : ∃ v, coreStep u = .next v ∧ t.Twin v := by
  obtain ⟨g, o, m, hides, rfl⟩ := h
  obtain ⟨hp, rfl⟩ | ⟨hp, rfl⟩ | ⟨hp, rfl⟩ | ⟨hp, hdec⟩ := coreStep_next_cases ht
  · exact ⟨_, coreStep_of_idle (s := State.overlay _ g o m) hp, g, o, m, hides, rfl⟩
  · exact ⟨_, coreStep_of_build (s := s.overlay g o m) hp, buildStep_twin hides hp⟩
  · exact ⟨_, coreStep_of_enc (s := s.overlay g o m) hp, encStep_twin hp⟩
  · rw [coreStep_of_dec (s := s.overlay g o m) hp]
    exact decStep_twin hp hdec

/-! ### The host's events and the step -/

/-- The host's own side moves alike (R220). -/
theorem State.Twin.hostSide (h : s.Twin u) (e : HostEvent) : (s.hostSide e).Twin (u.hostSide e) := by
  obtain ⟨g, o, m, ⟨latched, staged, completed⟩, rfl⟩ := h
  cases e <;> exact ⟨g, o, m, ⟨latched, staged, completed⟩, rfl⟩

theorem State.Twin.of_host (h : s.Twin u) (rest : List HostEvent) :
    State.Twin { s with host := rest } { u with host := rest } := by
  obtain ⟨g, o, m, ⟨latched, staged, completed⟩, rfl⟩ := h
  exact ⟨g, o, m, ⟨latched, staged, completed⟩, rfl⟩

theorem State.Twin.writeLen (h : s.Twin u) (data : Nat) : (s.writeLen data).Twin (u.writeLen data) := by
  obtain ⟨g, o, m, ⟨latched, staged, completed⟩, rfl⟩ := h
  exact State.Twin.ite ⟨g, o, m, ⟨latched, staged, completed⟩, rfl⟩ ⟨g, o, m, ⟨latched, staged, completed⟩, rfl⟩

/-- Reset leaves nothing to hide (R42, R210). -/
theorem State.Twin.resetCore (h : s.Twin u) : s.resetCore.Twin u.resetCore := by
  obtain ⟨g, o, m, -, rfl⟩ := h
  exact State.Twin.refl s.resetCore

theorem State.Twin.sameSetting (h : s.Twin u) : s.SameSetting u := by
  obtain ⟨g, o, m, -, rfl⟩ := h
  exact s.sameSetting_overlay

theorem State.Twin.busy_eq (h : s.Twin u) : u.busy = s.busy := by
  obtain ⟨g, o, m, -, rfl⟩ := h
  rfl

/-- A register write (R32, R34): twins are busy alike, and idle ones accept a command to twins. -/
theorem writeReg_twin (h : s.Twin u) (reg data : Nat) (ht : writeReg reg data s = .next t) :
    ∃ v, writeReg reg data u = .next v ∧ t.Twin v := by
  obtain rfl | h0 := eq_or_ne reg 0
  · cases hb : s.busy with
    | true =>
      obtain rfl := Host.Outcome.next.inj ((writeReg_cmd_of_busy hb data).symm.trans ht)
      exact ⟨u, writeReg_cmd_of_busy (h.busy_eq.trans hb) data, h⟩
    | false =>
      obtain ⟨t', v, hs, hu, htwin⟩ := acceptCommand_twin h.sameSetting (BitVec.ofNat 8 data)
      obtain rfl := Host.Outcome.next.inj (hs.symm.trans ((writeReg_cmd_of_idle hb data).symm.trans ht))
      exact ⟨v, (writeReg_cmd_of_idle (h.busy_eq.trans hb) data).trans hu, htwin⟩
  · obtain rfl | h2 := eq_or_ne reg 2
    · obtain rfl := Host.Outcome.next.inj ((writeReg_len s data).symm.trans ht)
      exact ⟨_, writeReg_len u data, h.writeLen data⟩
    · obtain rfl := Host.Outcome.next.inj ((writeReg_of_readOnly s h0 h2 data).symm.trans ht)
      exact ⟨u, writeReg_of_readOnly u h0 h2 data, h⟩

theorem hostStep_twin (h : s.Twin u) (e : HostEvent) (ht : hostStep e s = .next t) :
    ∃ v, hostStep e u = .next v ∧ t.Twin v := by
  have side (e : HostEvent) (he : .next (s.hostSide e) = Host.Outcome.next (φ := Fault) (ρ := Refusal) t) :
      t.Twin (u.hostSide e) := by
    obtain rfl : s.hostSide e = t := by simpa using he
    exact h.hostSide e
  cases e with
  | write reg data => exact writeReg_twin h reg data ht
  | present b => exact ⟨_, rfl, side (.present b) ht⟩
  | withdraw => exact ⟨_, rfl, side .withdraw ht⟩
  | sink r => exact ⟨_, rfl, side (.sink r) ht⟩
  | rst level =>
    cases level with
    | false => exact ⟨u, rfl, side .tick ht⟩
    | true =>
      obtain rfl : (s.hostSide (.rst true)).resetCore = t := by simpa [hostStep] using ht
      exact ⟨_, rfl, (h.hostSide (.rst true)).resetCore⟩
  | tick => exact coreStep_twin h ht

theorem resetStep_twin (h : s.Twin u) : (resetStep s).Twin (resetStep u) := by
  have hhost := h.sameSetting.host
  unfold resetStep
  rw [← hhost]
  cases s.host with
  | nil => exact h.resetCore
  | cons e rest => exact ((h.of_host rest).hostSide e).resetCore

/-- Twins step to twins, whoever acts. -/
theorem step_twin (h : s.Twin u) (ht : step s = .next t) : ∃ v, step u = .next v ∧ t.Twin v := by
  have hrst := h.sameSetting.rst
  have hhost := h.sameSetting.host
  obtain ⟨hr, rfl⟩ | ⟨hr, hnil, hcore⟩ | ⟨e, rest, hr, hcons, hevent⟩ := step_next_cases ht
  · exact ⟨_, step_of_rst (hrst ▸ hr), resetStep_twin h⟩
  · rw [step_of_core (hrst ▸ hr) (hhost ▸ hnil)]
    exact coreStep_twin h hcore
  · rw [step_of_event (hrst ▸ hr) (hhost ▸ hcons)]
    exact hostStep_twin (h.of_host rest) e hevent

/-- Twins run to twins. -/
theorem runsTo_twin (h : s.Twin u) {k : Nat} (ht : s.runsTo k t) : ∃ v, u.runsTo k v ∧ t.Twin v := by
  induction k generalizing s u with
  | zero =>
    obtain rfl : s = t := by injection ht
    exact ⟨u, runsTo_zero u, h⟩
  | succ k ih =>
    obtain ⟨s', hs, hrun⟩ := runsTo_succ_inv ht
    obtain ⟨u', hu, h'⟩ := step_twin h hs
    obtain ⟨v, hv, htwin⟩ := ih h' hrun
    exact ⟨v, runsTo_succ hu hv, htwin⟩

/-- The acceptance of a word by two idle CORES in the same setting leaves twins. -/
theorem acceptance_twin {w : Byte} {events : List HostEvent} (hs : s.ph = .idle) (hu : u.ph = .idle)
    (hes : s.nextEvent (.write 0 w.toNat) events) (heu : u.nextEvent (.write 0 w.toNat) events)
    (h : State.SameSetting { s with host := events } { u with host := events }) :
    ∃ t v, step s = .next t ∧ step u = .next v ∧ t.Twin v := by
  have hb1 : State.busy { s with host := events } = false := not_busy_of_ph hs
  have hb2 : State.busy { u with host := events } = false := not_busy_of_ph hu
  rw [step_of_write hes, step_of_write heu, writeReg_cmd_of_idle hb1, writeReg_cmd_of_idle hb2]
  exact acceptCommand_twin h _

end

/-- Settles O60: from the acceptance on the two runs are twins, step by step, whatever the host does. -/
theorem outcomeDependsOnAlphabetLenAndHostOnly : Obligations.OutcomeDependsOnAlphabetLenAndHostOnly := by
  intro s1 s2 w events k t1 hp1 hp2 he1 he2 halpha hlen hlenW hinp hout hsink hrun
  have setting : State.SameSetting { s1 with host := events } { s2 with host := events } :=
    ⟨hp1.trans hp2.symm, halpha, hlen, hlenW, hinp, hout, hsink, he1.1.trans he2.1.symm, rfl⟩
  obtain ⟨a1, a2, hstep1, hstep2, haccepted⟩ := acceptance_twin hp1 hp2 he1 he2 setting
  obtain ⟨a, ha, hrest⟩ := runsTo_succ_inv hrun
  obtain rfl : a1 = a := by simpa [hstep1] using ha
  obtain ⟨t2, hrun2, g, o, m, hides, rfl⟩ := runsTo_twin haccepted hrest
  exact ⟨_, runsTo_succ hstep2 hrun2, rfl, rfl, rfl, rfl, rfl, rfl, rfl, rfl, rfl,
    fun hb => (hides.completed ((not_busy_iff t1).1 hb)).symm⟩

end Sys2Proof.Machine
end

section
/-! How far one step moves the two streams (20_memory.md R53, R54, R59). What the CORE's own step moves is coreStep_moves;
here are the bound on what it offers, the advance of IDX, and OUT in the steps of the host and of a reset. -/

namespace Sys2Proof.Machine

/-! ### How many items the CORE offers -/

theorem State.offered_of_idle {s : State} (hp : s.ph = .idle) : s.offered = [] :=
  State.offered_eq_nil (coreStep_of_idle hp) rfl

theorem State.offered_of_build {s : State} (hp : s.ph = .build) : s.offered = [] :=
  State.offered_eq_nil (coreStep_of_build hp) (buildStep_out _)

/-- With PEND below 5 (R134) a byte step drains 8 + PEND bits, so at most two symbols; the finish has at most one. -/
theorem State.offered_length_of_enc {s : State} (h : s.Inv) (hp : s.ph = .enc) : s.offered.length ≤ 2 := by
  obtain ⟨-, -, hpend, -, -⟩ := h.encoding hp
  obtain ⟨b, rest, hi, hin⟩ | hi | ⟨hi, hin⟩ := s.position_cases s.len
  · rw [State.offered_encodeByte hp hi hin, symbolsOf_length, encPack_values_length]
    omega
  · rw [State.offered_encodeFinish hp hi, symbolsOf_length, encLast_length]
    split <;> decide
  · have hout : (encStep { s with outReady := true }).out = s.out := by
      rw [encStep_of_waits (s := { s with outReady := true }) hi hin]
    simp [State.offered_eq_nil (coreStep_of_enc hp) hout]

/-- With PEND below 8 (R155) a symbol step completes at most one byte. -/
theorem State.offered_length_of_dec {s : State} (h : s.Inv) (hp : s.ph = .dec) : s.offered.length ≤ 2 := by
  obtain ⟨-, hpend, -, -⟩ := h.decoding hp
  obtain ⟨c, rest, hi, hin⟩ | hi | ⟨hi, hin⟩ := s.position_cases s.len
  · by_cases hs : decRead s.alpha c = sentinel
    · simp [State.offered_decodeInvalid hp hi hin hs]
    · rw [State.offered_decodeValue hp hi hin hs (h.alphabet.decRead_lt hs),
        decUnpack_bytes_length _ _ _ _ (by omega)]
      omega
  · simp [State.offered_eq_nil_of_dec hp (decStep_of_full hi) rfl]
  · simp [State.offered_eq_nil_of_dec hp (decStep_of_waits hi hin) rfl]

/-- No step of the CORE has more than two items to put out. -/
theorem State.offered_length_le {s : State} (h : s.Inv) : s.offered.length ≤ 2 := by
  cases hp : s.ph with
  | idle => simp [State.offered_of_idle hp]
  | build => simp [State.offered_of_build hp]
  | enc => exact State.offered_length_of_enc h hp
  | dec => exact State.offered_length_of_dec h hp

/-! ### IN is read from the front -/

/-- What a step leaves on IN is IN, or IN without its first item. -/
theorem State.leftOnIn_cases (s : State) : s.leftOnIn = s.inp ∨ ∃ b, s.inp = b :: s.leftOnIn := by
  unfold State.leftOnIn
  split
  · cases s.inp with
    | nil => exact .inl rfl
    | cons b rest => exact .inr ⟨b, rfl⟩
  · exact .inl rfl

theorem State.Moves.inp_cases {s t : State} {items : List Byte} (h : s.Moves t items s.leftOnIn) :
    t.inp = s.inp ∨ ∃ b, s.inp = b :: t.inp := by
  obtain ⟨-, -, hinp⟩ | ⟨-, hold⟩ := h
  · rw [hinp]; exact s.leftOnIn_cases
  · exact .inl (by rw [hold])

/-! ### IDX advances by at most one -/

theorem buildStep_idx_le (s : State) : (buildStep s).idx ≤ s.idx + 1 := by
  obtain hold | ⟨b, rest, -, -, fill⟩ | ⟨-, check⟩ := buildStep_cases s
  · rw [hold]; exact Nat.le_succ _
  · rw [fill]; exact Nat.le_refl _
  · rw [check]
    obtain ⟨_, -, fault⟩ | ⟨-, commit⟩ := buildCheck_cases s
    · rw [fault]; exact Nat.le_succ _
    · rw [commit]; exact Nat.le_succ _

theorem encStep_idx_le (s : State) : (encStep s).idx ≤ s.idx + 1 := by
  obtain hold | ⟨b, rest, -, -, byte⟩ | ⟨-, finish⟩ := encStep_cases s
  · rw [hold]; exact Nat.le_succ _
  · rw [byte]
    obtain hold | move := encodeByte_cases b rest s
    · rw [hold]; exact Nat.le_succ _
    · rw [move]
  · rw [finish]
    obtain hold | complete := encodeFinish_cases s
    · rw [hold]; exact Nat.le_succ _
    · rw [complete]; exact Nat.le_succ _

theorem decStep_idx_le {s t : State} (h : decStep s = .next t) : t.idx ≤ s.idx + 1 := by
  obtain hold | ⟨c, rest, -, -, symbol⟩ | ⟨-, finish⟩ := decStep_cases s
  · obtain rfl := Host.Outcome.next.inj (hold.symm.trans h)
    exact Nat.le_succ _
  · obtain ⟨-, rfl⟩ | ⟨-, -, rfl⟩ := decodeSymbol_next (symbol ▸ h)
    · exact Nat.le_succ _
    · obtain hold | move := decodeValue_cases (decRead s.alpha c).toNat rest s
      · rw [hold]; exact Nat.le_succ _
      · rw [move]
  · obtain rfl := Host.Outcome.next.inj (finish.symm.trans h)
    exact Nat.le_succ _

theorem coreStep_idx_le {s t : State} (h : coreStep s = .next t) : t.idx ≤ s.idx + 1 := by
  obtain ⟨-, rfl⟩ | ⟨-, rfl⟩ | ⟨-, rfl⟩ | ⟨-, hdec⟩ := coreStep_next_cases h
  · exact Nat.le_succ _
  · exact buildStep_idx_le s
  · exact encStep_idx_le s
  · exact decStep_idx_le hdec

/-! ### OUT is only appended to -/

/-- From s to t at most two items are appended to OUT. -/
def State.AppendsAtMostTwo (s t : State) : Prop := s.out <+: t.out ∧ t.out.length ≤ s.out.length + 2

theorem State.appendsAtMostTwo_of_out_eq {s t : State} (h : t.out = s.out) : s.AppendsAtMostTwo t := by
  rw [State.AppendsAtMostTwo, h]
  exact ⟨List.prefix_rfl, Nat.le_add_right _ 2⟩

theorem State.Moves.appendsAtMostTwo {s t : State} {items left : List Byte} (h : s.Moves t items left)
    (hitems : items.length ≤ 2) : s.AppendsAtMostTwo t := by
  obtain ⟨-, hout, -⟩ | ⟨-, hold⟩ := h
  · rw [State.AppendsAtMostTwo, hout, List.length_append]
    exact ⟨List.prefix_append _ _, Nat.add_le_add_left hitems _⟩
  · exact State.appendsAtMostTwo_of_out_eq (by rw [hold])

theorem coreStep_appendsAtMostTwo {s t : State} (h : s.Inv) (ht : coreStep s = .next t) : s.AppendsAtMostTwo t :=
  (coreStep_moves h ht).appendsAtMostTwo (State.offered_length_le h)

/-- Acceptance puts out nothing: the first item of an operation comes in a later step. -/
theorem exec_out {i : Instr} {s t : State} (h : exec i s = .next t) : t.out = s.out := by
  obtain ⟨_, rfl, -⟩ | ⟨_, rfl⟩ | ⟨rfl, -⟩ | ⟨rfl, -⟩ | ⟨_, rfl, -⟩ | ⟨_, rfl, -⟩ | rfl := exec_next_cases h
  all_goals rfl

theorem acceptCommand_out {w : Byte} {s t : State} (h : acceptCommand w s = .next t) : t.out = s.out := by
  obtain ⟨_, -, hexec⟩ | ⟨_, -, rfl⟩ := acceptCommand_next_cases h
  · exact exec_out hexec
  · rfl

theorem hostSide_out (s : State) (e : HostEvent) : (s.hostSide e).out = s.out := by cases e <;> rfl

/-- Of the host's events only a tick, the CORE's own step, appends to OUT. -/
theorem hostStep_appendsAtMostTwo {e : HostEvent} {s t : State} (h : s.Inv) (ht : hostStep e s = .next t) :
    s.AppendsAtMostTwo t := by
  obtain ⟨_, -, -, hcmd⟩ | ⟨_, -, -, rfl⟩ | ⟨-, rfl⟩ | ⟨-, hcore⟩ | ⟨_, _, rfl⟩ := hostStep_next_cases ht
  · exact State.appendsAtMostTwo_of_out_eq (acceptCommand_out hcmd)
  · exact State.appendsAtMostTwo_of_out_eq rfl
  · exact State.appendsAtMostTwo_of_out_eq (by rw [State.resetCore_out, hostSide_out])
  · exact coreStep_appendsAtMostTwo h hcore
  · exact State.appendsAtMostTwo_of_out_eq rfl

/-- What has been put out stays with the host through a reset (R212). -/
theorem resetStep_out (s : State) : (resetStep s).out = s.out := by
  unfold resetStep
  split
  · exact State.resetCore_out s
  · rw [State.resetCore_out, hostSide_out]

theorem step_appendsAtMostTwo {s t : State} (h : s.Inv) (ht : step s = .next t) : s.AppendsAtMostTwo t := by
  obtain ⟨-, rfl⟩ | ⟨-, -, hcore⟩ | ⟨_, rest, -, -, hhost⟩ := step_next_cases ht
  · exact State.appendsAtMostTwo_of_out_eq (resetStep_out s)
  · exact coreStep_appendsAtMostTwo h hcore
  · exact (hostStep_appendsAtMostTwo (h.of_host s.inp s.outReady rest s.rst) hhost :)

/-- Settles O58: IN by what the CORE's own step moves, IDX by phase, OUT by who acts in the step. -/
theorem streamsAreReadAndWrittenInOrder : Obligations.StreamsAreReadAndWrittenInOrder :=
  ⟨fun _ _ h ht => ⟨(coreStep_moves h ht).inp_cases, coreStep_idx_le ht⟩, fun _ _ h ht => step_appendsAtMostTwo h ht⟩

end Sys2Proof.Machine
end

section
/-! The command word (30_encoding.md R70, R71, R73, R74): decoder, encoder and the field rule. -/

namespace Sys2Proof

theorem decode_encode (i : Instr) : decode (encode i) = .command i := by cases i <;> rfl

theorem encode_of_mem_commandTable {row : Byte × Instr} (h : row ∈ commandTable) : encode row.2 = row.1 := by
  revert row; decide

/-- Matching the whole byte in the table is the inverse of the encoder (R71). -/
theorem decode_eq_command_iff {w : Byte} {i : Instr} : decode w = .command i ↔ encode i = w := by
  constructor
  · intro h
    unfold decode at h
    split at h
    case h_1 row hrow =>
      obtain rfl : row.2 = i := by simpa using h
      rw [encode_of_mem_commandTable (List.mem_of_find?_eq_some hrow)]
      simpa using List.find?_some hrow
    case h_2 => simp at h
  · rintro rfl
    exact decode_encode i

theorem encode_eq_iff_fields {w : Byte} {i : Instr} : encode i = w ↔ i.fields = fieldsOf w := by
  constructor
  · rintro rfl
    exact (fieldsOf_encode i).symm
  · intro h
    rw [encode, h, packFields_fieldsOf]

theorem Instr.fields_wellFormed (i : Instr) : i.fields.wellFormed = true := by cases i <;> rfl

/-- No field value that passes the five checks is missing from the table of R71. -/
theorem CmdFields.exists_instr_of_wellFormed {f : CmdFields} (h : f.wellFormed = true) : ∃ i : Instr, i.fields = f := by
  have hrow : ∃ row ∈ commandTable, row.2.fields = f := by
    obtain ⟨z, l, r, p⟩ := f
    revert z l r p; decide +kernel
  obtain ⟨row, -, hf⟩ := hrow
  exact ⟨row.2, hf⟩

/-- The five checks in the form of R70, R73, R74: SEL and ORD each by the operation that uses it. -/
theorem CmdFields.wellFormed_iff {f : CmdFields} : f.wellFormed = true ↔
    f.zero = 0 ∧ f.op ≠ 7 ∧ (f.sel = 0 ∨ (f.op = 1 ∧ f.sel ≠ 3)) ∧ (f.ord = 0 ∨ f.op = 2) := by
  simp only [wellFormed, zeroClear, opDefined, selDefined, selUsed, ordUsed, Bool.and_eq_true, Bool.or_eq_true,
    beq_iff_eq, bne_iff_ne]
  by_cases hsel : f.sel = 0
  · simp [hsel]; tauto
  · tauto

theorem exists_command_iff_wellFormed {w : Byte} : (∃ i, decode w = .command i) ↔ (fieldsOf w).wellFormed = true := by
  simp only [decode_eq_command_iff, encode_eq_iff_fields]
  constructor
  · rintro ⟨i, hi⟩
    exact hi ▸ i.fields_wellFormed
  · exact CmdFields.exists_instr_of_wellFormed

/-- Settles O9: the decoder inverts the encoder, whose ten words are computed. -/
theorem legalWordsAreTheTenOfTheTable : Obligations.LegalWordsAreTheTenOfTheTable :=
  ⟨fun _ _ => decode_eq_command_iff, rfl, rfl, rfl, rfl, rfl, rfl, rfl, rfl, rfl, rfl⟩

/-- Settles O10: a word is a command exactly when its fields are well formed, and the checks are the field rule. -/
theorem fieldRuleDecidesLegality : Obligations.FieldRuleDecidesLegality := fun _ =>
  exists_command_iff_wellFormed.trans CmdFields.wellFormed_iff

/-- Settles O11, by evaluating the decoder on the ten sample words. -/
theorem sampleWordsDecode : Obligations.SampleWordsDecode := by
  unfold Obligations.SampleWordsDecode
  decide

end Sys2Proof
end

section
/-! An ENCODE and a DECODE from acceptance to completion (42_encoder.md R131 to R136, 43_decoder.md R151 to R158): the
acceptance step, the steps on the items, the finish step. -/

namespace Sys2Proof.Machine

/-- The state after the acceptance of an operation that runs in phase p (R131, R151): the prologue is done and the
host's write is spent. -/
def State.started (s : State) (p : Phase) : State := { State.prologue { s with host := [] } with ph := p }

/-- The state after a running operation has taken its last item, put out the items put and completed. What it leaves in
ACC and PEND is dead (93_implementation_defined.md U10). -/
def State.ended (s : State) (acc : BitVec 12) (pend : BitVec 4) (put rest : List Byte) : State :=
  { s with
    acc := acc, pend := pend, idx := s.len, inp := rest, out := s.out ++ put
    outcnt := s.outcnt + put.length, result := s.outcnt + put.length, ph := .idle, done := true }

theorem State.started_ended_completedAs (s : State) (p : Phase) (acc : BitVec 12) (pend : BitVec 4)
    (put rest : List Byte) : s.completedAs ((s.started p).ended acc pend put rest) put.length put rest where
  frame := ⟨rfl, rfl, rfl, rfl, rfl, rfl⟩
  status := State.status_of_done rfl rfl rfl rfl
  result := Nat.zero_add _
  errOffset := rfl
  errByte := rfl
  out := rfl
  inp := rfl

theorem toPend_toNat {n : Nat} (h : n < 8) : (toPend n).toNat = n := by
  rw [toPend, BitVec.toNat_ofNat]; omega

theorem toAcc_toNat {n p : Nat} (h : n < 2 ^ p) (hp : p < 8) : (toAcc n).toNat = n := by
  rw [toAcc, BitVec.toNat_ofNat]
  exact Nat.mod_eq_of_lt (Nat.lt_trans h (Nat.pow_lt_pow_right (by decide) (by omega)))

/-! ### ENCODE -/

theorem step_encode_of_fits {s : State} {bytes rest : List Byte} (h : s.readyFor .encode bytes rest)
    (hfit : encodedSize bytes.length ≤ maxLen s.lenW) : step s = .next (s.started .enc) := by
  have hlen : encodedLength s.lenW s.len = some (encodedSize s.len) := encodedLength_eq_some.2 ⟨by rwa [h.length], rfl⟩
  rw [step_readyFor h]
  simp only [exec, execEncode, hlen, State.started]

theorem encodeFinish_of_ready {s : State} (h : s.outReady = true) :
    encodeFinish s = (s.putOut (symbolsOf s.alpha (encLast s.alpha.order s.acc.toNat s.pend.toNat))).complete
      (s.outcnt + (encLast s.alpha.order s.acc.toNat s.pend.toNat).length) := by
  simp [encodeFinish, h]

/-- The byte steps and the finish step of ENCODE together put out the encoding of the bytes. -/
theorem enc_runsTo_ended {s : State} {bytes rest : List Byte} (hc : s.coreRuns) (hp : s.ph = .enc)
    (hr : s.outReady = true) (hin : s.inp = bytes ++ rest) (hi : s.idx + bytes.length = s.len)
    (hacc : s.acc.toNat = 0) (hpend : s.pend.toNat = 0) :
    ∃ acc pend, s.runsTo (bytes.length + 1) (s.ended acc pend (encodeWhole s.alpha bytes) rest) := by
  have hrun := enc_runsTo bytes hc hp hr hin (Nat.le_of_eq hi) (by simp [hpend]) (by simp [hacc, hpend])
  have hvalues := encAll_values_eq s.alpha.order bytes
  have hlt := encAll_acc_lt s.alpha.order 0 0 bytes (by decide)
  have hle : (encAll s.alpha.order 0 0 bytes).pend < 8 := by rw [encAll_pend _ _ _ _ (by decide)]; omega
  simp only [hacc, hpend, hi] at hrun
  generalize encAll s.alpha.order 0 0 bytes = d at hrun hvalues hlt hle
  refine ⟨toAcc d.acc, toPend d.pend, runsTo_add hrun (runsTo_core hc ?_)⟩
  rw [coreStep_of_enc, encStep_of_full, encodeFinish_of_ready]
  · simp [State.ended, State.putOut, State.complete, State.setDone, toPend_toNat hle, toAcc_toNat hlt hle, encodeWhole,
      ← hvalues, Nat.add_assoc]
  · exact hr
  · rfl
  · exact hp

/-- A whole ENCODE of bytes whose encoding fits: LEN + 2 steps to its completion (R136). -/
theorem encode_runsTo_completed {s : State} {bytes rest : List Byte} (h : s.readyFor .encode bytes rest)
    (hfit : encodedSize bytes.length ≤ maxLen s.lenW) :
    ∃ t, s.runsTo (bytes.length + 2) t ∧
      s.completedAs t (encodedSize bytes.length) (encodeWhole s.alpha bytes) rest ∧ t.alpha = s.alpha := by
  obtain ⟨acc, pend, hrun⟩ := enc_runsTo_ended (s := s.started .enc) ⟨h.released, rfl⟩ rfl h.sink h.offered
    ((Nat.zero_add _).trans h.length.symm) rfl rfl
  have hm : (encodeWhole s.alpha bytes).length = encodedSize bytes.length := by
    rw [encodeWhole, symbolsOf_length, encodeValues_length]
  exact ⟨_, runsTo_succ (step_encode_of_fits h hfit) hrun, hm ▸ s.started_ended_completedAs .enc acc pend _ rest, rfl⟩

/-! ### DECODE -/

theorem step_decode {s : State} {syms rest : List Byte} (h : s.readyFor .decode syms rest) :
    step s = .next (s.started .dec) := step_readyFor h

/-- The symbol steps and the finish step of DECODE together put out the bytes of the closed form. -/
theorem dec_runsTo_ended {s : State} {syms rest : List Byte} (hw : s.alpha.Wf) (hc : s.coreRuns) (hp : s.ph = .dec)
    (hr : s.outReady = true) (hin : s.inp = syms ++ rest) (hi : s.idx + syms.length = s.len)
    (hacc : s.acc.toNat = 0) (hpend : s.pend.toNat = 0) (hv : ∀ c ∈ syms, decRead s.alpha c ≠ sentinel) :
    ∃ acc pend, s.runsTo (syms.length + 1)
      (s.ended acc pend (decodeBytes s.alpha.order (syms.map (valueOf s.alpha))) rest) := by
  have hrun := dec_runsTo syms hw hc hp hr hin (Nat.le_of_eq hi) (by simp [hpend]) (by simp [hacc, hpend]) hv
  have hbytes := decAll_bytes_eq s.alpha.order (syms.map (valueOf s.alpha))
  simp only [hacc, hpend, hi] at hrun
  generalize decAll s.alpha.order 0 0 (syms.map (valueOf s.alpha)) = u at hrun hbytes
  refine ⟨toAcc u.acc, toPend u.pend, runsTo_add hrun (runsTo_core hc ?_)⟩
  rw [coreStep_of_dec, decStep_of_full, ← hbytes]
  · rfl
  · rfl
  · exact hp

/-- A whole DECODE of symbols of the alphabet: LEN + 2 steps to its completion (R158). -/
theorem decode_runsTo_completed {s : State} {syms rest : List Byte} (hw : s.alpha.Wf)
    (h : s.readyFor .decode syms rest) (hv : ∀ c ∈ syms, decRead s.alpha c ≠ sentinel) :
    ∃ t, s.runsTo (syms.length + 2) t ∧
      s.completedAs t (5 * syms.length / 8) (decodeBytes s.alpha.order (syms.map (valueOf s.alpha))) rest ∧
      t.alpha = s.alpha := by
  obtain ⟨acc, pend, hrun⟩ := dec_runsTo_ended (s := s.started .dec) hw ⟨h.released, rfl⟩ rfl h.sink h.offered
    ((Nat.zero_add _).trans h.length.symm) rfl rfl hv
  have hm : (decodeBytes s.alpha.order (syms.map (valueOf s.alpha))).length = 5 * syms.length / 8 := by
    rw [decodeBytes_length, List.length_map]
  exact ⟨_, runsTo_succ (step_decode h) hrun, hm ▸ s.started_ended_completedAs .dec acc pend _ rest, rfl⟩

end Sys2Proof.Machine
end

section
/-! The lanes of a full group (30_encoding.md R79, R80, R84). In Inverted order a group is one word with its first item
lowest, and the lanes cut that word; Normal order is the mirror image, items and lanes both from last to first. -/

namespace Sys2Proof.Machine

/-! ### Cutting a word made of items -/

theorem toNat_append_eq_add {m n : Nat} (x : BitVec m) (y : BitVec n) : (x ++ y).toNat = y.toNat + 2 ^ n * x.toNat := by
  rw [BitVec.toNat_append, or_eq_add_low _ _ _ y.isLt, Nat.add_comm, Nat.mul_comm]

theorem mask5_toNat_shiftRight {n : Nat} (x : BitVec n) (k : Nat) : mask5 (x.toNat >>> k) = x.extractLsb' k 5 := rfl

theorem mask8_toNat_shiftRight {n : Nat} (x : BitVec n) (k : Nat) : mask8 (x.toNat >>> k) = x.extractLsb' k 8 := rfl

/-- A cut across the border of two parts takes the top lo bits of the low part and hi bits of the high part. -/
theorem extractLsb'_append_straddling {m n : Nat} (x : BitVec m) (y : BitVec n) {start hi lo : Nat}
    (h : start + lo = n) :
    (x ++ y).extractLsb' start (hi + lo) = x.extractLsb' 0 hi ++ y.extractLsb' start lo := by
  subst h
  ext i _
  simp only [BitVec.getElem_extractLsb', BitVec.getElem_append, BitVec.getLsbD_append]
  by_cases hlo : i < lo
  · simp [hlo]
  · simp [hlo, show start + i - (start + lo) = i - lo by omega]

/-! ### Normal order mirrors Inverted order -/

/-- With no padding the values of R82 are those of R83 for the reversed bytes, in reverse. -/
theorem encodeValues_normal_of_whole_groups {bytes : List Byte} (h : 5 ∣ bytes.length) :
    encodeValues .normal bytes = (encodeValues .inverted bytes.reverse).reverse := by
  have hpad : 5 * encodedSize bytes.length - 8 * bytes.length = 0 := by rw [encodedSize_eq]; omega
  simp only [encodeValues, hpad, Nat.shiftLeft_zero, List.length_reverse, List.map_reverse]
  rw [← List.reverse_eq_iff]
  exact reverse_range_map (fun k => mask5 (bigEndian 256 (bytes.map BitVec.toNat) >>> (5 * k))) _

theorem decodeBytes_inverted (vs : List Val5) :
    decodeBytes .inverted vs = (List.range (5 * vs.length / 8)).map fun j =>
      mask8 (littleEndian 32 (vs.map BitVec.toNat) >>> (8 * j)) := rfl

/-- With no bits left over the bytes of the two closed forms of R84 mirror each other. -/
theorem decodeBytes_normal_of_whole_groups {vs : List Val5} (h : 8 ∣ vs.length) :
    decodeBytes .normal vs = (decodeBytes .inverted vs.reverse).reverse := by
  have hmirror : decodeBytes .normal vs = (List.range (5 * vs.length / 8)).map fun j =>
      mask8 (bigEndian 32 (vs.map BitVec.toNat) >>> (8 * (5 * vs.length / 8 - 1 - j))) := by
    refine List.map_congr_left fun j hj => ?_
    have := List.mem_range.1 hj
    rw [show 5 * vs.length - 8 * (j + 1) = 8 * (5 * vs.length / 8 - 1 - j) by omega]
  simp only [hmirror, decodeBytes_inverted, List.length_reverse, List.map_reverse]
  rw [← List.reverse_eq_iff]
  exact reverse_range_map (fun j => mask8 (bigEndian 32 (vs.map BitVec.toNat) >>> (8 * j))) _

/-! ### The encoder's lanes -/

theorem encodeValues_inverted_group_eq_cuts (b0 b1 b2 b3 b4 : Byte) :
    encodeValues .inverted [b0, b1, b2, b3, b4] =
      (List.range 8).map fun k => (b4 ++ b3 ++ b2 ++ b1 ++ b0).extractLsb' (5 * k) 5 := by
  have hN : littleEndian 256 ([b0, b1, b2, b3, b4].map BitVec.toNat) = (b4 ++ b3 ++ b2 ++ b1 ++ b0).toNat := by
    simp only [List.map_cons, List.map_nil, littleEndian, toNat_append_eq_add, Nat.reducePow, Nat.mul_zero,
      Nat.add_zero]
  simp only [encodeValues, hN, mask5_toNat_shiftRight, encodedSize_eq, List.length_cons, List.length_nil, Nat.zero_add,
    Nat.reduceAdd, Nat.reduceMul, Nat.reduceDiv]

/-- R80: four of the lanes lie inside a byte, the other four straddle two. -/
theorem encodeValues_inverted_group (b0 b1 b2 b3 b4 : Byte) :
    encodeValues .inverted [b0, b1, b2, b3, b4] =
      [ b0.extractLsb' 0 5,
        b1.extractLsb' 0 2 ++ b0.extractLsb' 5 3,
        b1.extractLsb' 2 5,
        b2.extractLsb' 0 4 ++ b1.extractLsb' 7 1,
        b3.extractLsb' 0 1 ++ b2.extractLsb' 4 4,
        b3.extractLsb' 1 5,
        b4.extractLsb' 0 3 ++ b3.extractLsb' 6 2,
        b4.extractLsb' 3 5 ] := by
  rw [encodeValues_inverted_group_eq_cuts]
  simp (disch := omega) only [List.range, List.range.loop, List.map_cons, List.map_nil,
    BitVec.extractLsb'_append_eq_of_le, BitVec.extractLsb'_append_eq_of_add_le]
  rw [extractLsb'_append_straddling (hi := 2) (lo := 3) _ b0 rfl,
    extractLsb'_append_straddling (hi := 4) (lo := 1) _ b1 rfl,
    extractLsb'_append_straddling (hi := 1) (lo := 4) _ b2 rfl,
    extractLsb'_append_straddling (hi := 3) (lo := 2) _ b3 rfl]
  simp (disch := omega) only [BitVec.extractLsb'_append_eq_of_add_le]

/-- R79: the mirror image of R80. -/
theorem encodeValues_normal_group (b0 b1 b2 b3 b4 : Byte) :
    encodeValues .normal [b0, b1, b2, b3, b4] =
      [ b0.extractLsb' 3 5,
        b0.extractLsb' 0 3 ++ b1.extractLsb' 6 2,
        b1.extractLsb' 1 5,
        b1.extractLsb' 0 1 ++ b2.extractLsb' 4 4,
        b2.extractLsb' 0 4 ++ b3.extractLsb' 7 1,
        b3.extractLsb' 2 5,
        b3.extractLsb' 0 2 ++ b4.extractLsb' 5 3,
        b4.extractLsb' 0 5 ] := by
  have hmirror := encodeValues_inverted_group b4 b3 b2 b1 b0
  exact (encodeValues_normal_of_whole_groups ⟨1, rfl⟩).trans (congrArg List.reverse hmirror)

/-- An ENCODE of one full group fits every LEN_W and puts out the symbols of its values. -/
theorem encode_group_runsTo {s : State} {b0 b1 b2 b3 b4 : Byte} {rest : List Byte}
    (h : s.readyFor .encode [b0, b1, b2, b3, b4] rest) (hw : 8 ≤ s.lenW) :
    ∃ t, s.runsTo 7 t ∧ t.status = 0x02#8 ∧
      t.out = s.out ++ (encodeValues s.alpha.order [b0, b1, b2, b3, b4]).map (encRead s.alpha) := by
  have hfit : encodedSize 5 ≤ maxLen s.lenW := Nat.le_trans (by decide) (maxLen_mono hw)
  obtain ⟨t, hrun, hdone, -⟩ := encode_runsTo_completed h hfit
  exact ⟨t, hrun, hdone.status, hdone.out⟩

/-- Settles O44: the run of one group, with the values of R79. -/
theorem encoderLanesNormal : Obligations.EncoderLanesNormal := by
  intro s b0 b1 b2 b3 b4 rest h ho hw
  rw [← encodeValues_normal_group, ← ho]
  exact encode_group_runsTo h hw

/-- Settles O45: the run of one group, with the values of R80. -/
theorem encoderLanesInverted : Obligations.EncoderLanesInverted := by
  intro s b0 b1 b2 b3 b4 rest h ho hw
  rw [← encodeValues_inverted_group, ← ho]
  exact encode_group_runsTo h hw

/-! ### The decoder's lanes -/

theorem decodeBytes_inverted_group_eq_cuts (v0 v1 v2 v3 v4 v5 v6 v7 : Val5) :
    decodeBytes .inverted [v0, v1, v2, v3, v4, v5, v6, v7] =
      (List.range 5).map fun k => (v7 ++ v6 ++ v5 ++ v4 ++ v3 ++ v2 ++ v1 ++ v0).extractLsb' (8 * k) 8 := by
  have hM : littleEndian 32 ([v0, v1, v2, v3, v4, v5, v6, v7].map BitVec.toNat) =
      (v7 ++ v6 ++ v5 ++ v4 ++ v3 ++ v2 ++ v1 ++ v0).toNat := by
    simp only [List.map_cons, List.map_nil, littleEndian, toNat_append_eq_add, Nat.reducePow, Nat.mul_zero,
      Nat.add_zero]
  simp only [decodeBytes_inverted, hM, mask8_toNat_shiftRight, List.length_cons, List.length_nil, Nat.zero_add,
    Nat.reduceAdd, Nat.reduceMul, Nat.reduceDiv]

/-- R84 in Inverted order: a byte straddles two values or takes the whole of one between two others. -/
theorem decodeBytes_inverted_group (v0 v1 v2 v3 v4 v5 v6 v7 : Val5) :
    decodeBytes .inverted [v0, v1, v2, v3, v4, v5, v6, v7] =
      [ v1.extractLsb' 0 3 ++ v0,
        v3.extractLsb' 0 1 ++ v2 ++ v1.extractLsb' 3 2,
        v4.extractLsb' 0 4 ++ v3.extractLsb' 1 4,
        v6.extractLsb' 0 2 ++ v5 ++ v4.extractLsb' 4 1,
        v7 ++ v6.extractLsb' 2 3 ] := by
  rw [decodeBytes_inverted_group_eq_cuts]
  simp (disch := omega) only [List.range, List.range.loop, List.map_cons, List.map_nil,
    BitVec.extractLsb'_append_eq_of_le]
  rw [extractLsb'_append_straddling (hi := 3) (lo := 5) _ v0 rfl,
    extractLsb'_append_straddling (hi := 6) (lo := 2) _ v1 rfl,
    extractLsb'_append_straddling (hi := 1) (lo := 5) _ v2 rfl,
    extractLsb'_append_straddling (hi := 4) (lo := 4) _ v3 rfl,
    extractLsb'_append_straddling (hi := 7) (lo := 1) _ v4 rfl,
    extractLsb'_append_straddling (hi := 2) (lo := 5) _ v5 rfl,
    extractLsb'_append_straddling (hi := 5) (lo := 3) _ v6 rfl]
  simp (disch := omega) only [BitVec.extractLsb'_append_eq_of_add_le, BitVec.extractLsb'_eq_self]

/-- R84 in Normal order: the mirror image of Inverted order. -/
theorem decodeBytes_normal_group (v0 v1 v2 v3 v4 v5 v6 v7 : Val5) :
    decodeBytes .normal [v0, v1, v2, v3, v4, v5, v6, v7] =
      [ v0 ++ v1.extractLsb' 2 3,
        v1.extractLsb' 0 2 ++ v2 ++ v3.extractLsb' 4 1,
        v3.extractLsb' 0 4 ++ v4.extractLsb' 1 4,
        v4.extractLsb' 0 1 ++ v5 ++ v6.extractLsb' 3 2,
        v6.extractLsb' 0 3 ++ v7 ] := by
  have hmirror := decodeBytes_inverted_group v7 v6 v5 v4 v3 v2 v1 v0
  exact (decodeBytes_normal_of_whole_groups ⟨1, rfl⟩).trans (congrArg List.reverse hmirror)

theorem Alphabet.Wf.decRead_encRead_ne {a : Alphabet} (h : a.Wf) (v : Val5) : decRead a (encRead a v) ≠ sentinel :=
  h.decRead_enc_ne v.toFin

/-- The symbol of a value stands for the value (R24 d). -/
theorem Alphabet.Wf.valueOf_encRead {a : Alphabet} (h : a.Wf) (v : Val5) : valueOf a (encRead a v) = v := by
  rw [valueOf, encRead, h.inverse_hit]
  apply BitVec.eq_of_toNat_eq
  simp [mask5, v.isLt]

/-- A DECODE of the symbols of any values puts out the bytes of the closed form. -/
theorem decode_symbolsOf_runsTo {s : State} {vs : List Val5} {rest : List Byte} (hw : s.alpha.Wf)
    (h : s.readyFor .decode (vs.map (encRead s.alpha)) rest) :
    ∃ t, s.runsTo (vs.length + 2) t ∧ t.status = 0x02#8 ∧ t.out = s.out ++ decodeBytes s.alpha.order vs := by
  have hvalid : ∀ c ∈ vs.map (encRead s.alpha), decRead s.alpha c ≠ sentinel :=
    List.forall_mem_map.2 fun v _ => hw.decRead_encRead_ne v
  have hvalues : (vs.map (encRead s.alpha)).map (valueOf s.alpha) = vs := by
    simp [Function.comp_def, hw.valueOf_encRead]
  obtain ⟨t, hrun, hdone, -⟩ := decode_runsTo_completed hw h hvalid
  rw [List.length_map] at hrun
  exact ⟨t, hrun, hdone.status, hvalues ▸ hdone.out⟩

/-- Settles O52: the run of the eight symbols, with the bytes of R84 in each order. -/
theorem decoderLanes : Obligations.DecoderLanes := by
  intro s v0 v1 v2 v3 v4 v5 v6 v7 rest hw h
  obtain ⟨t, hrun, hstatus, hout⟩ := decode_symbolsOf_runsTo hw h
  refine ⟨t, hrun, hstatus, fun ho => ?_, fun ho => ?_⟩
  · rw [hout, ho, decodeBytes_normal_group]
  · rw [hout, ho, decodeBytes_inverted_group]

end Sys2Proof.Machine
end

section
/-! The construction of an alphabet (40_alphabet.md): LOADB (R109) and the three steps of a BUILD, its acceptance (R101),
the fill (R102), the check and commit (R103), up to the whole run (R100, R111). -/

namespace Sys2Proof.Machine

/-! ### Acceptance -/

theorem exec_loadbCommand (k : Builtin) (s : State) : exec (loadbCommand k) s = .next (loadBuiltin k s) := by
  cases k <;> rfl

theorem exec_buildCommand (o : BitOrder) (s : State) : exec (buildCommand o) s = .next (buildStart o s) := by
  cases o <;> rfl

theorem loadBuiltin_status (k : Builtin) (s : State) : (loadBuiltin k s).status = 0x02#8 :=
  State.complete_status _ 0 rfl rfl

theorem buildStart_of_length {s : State} (h : s.len = 32) (o : BitOrder) :
    buildStart o s = { s.prologue with ordLatch := o, ph := .build } := if_pos h

theorem buildStart_of_wrong_length {s : State} (h : s.len ≠ 32) (o : BitOrder) :
    buildStart o s = s.prologue.raise .valInvalidLength := if_neg h

/-- Settles O25: LOADB leaves a built-in alphabet, which meets R24, after a completion. -/
theorem loadbMakesTheBuiltinActive : Obligations.LoadbMakesTheBuiltinActive :=
  ⟨rfl, rfl, rfl, fun k s => ⟨loadBuiltin k s, exec_loadbCommand k s, loadBuiltin_status k s, fun _ => rfl,
    (rom_wf k).inverse_hit, (rom_wf k).inverse_miss, rfl, rfl⟩⟩

/-- Settles O28: the start rule of BUILD, at the length it asks for. -/
theorem buildStartsAtLengthThirtyTwo : Obligations.BuildStartsAtLengthThirtyTwo := by
  intro o s h
  rw [exec_buildCommand, buildStart_of_length h]
  rfl

/-! ### The fill step -/

theorem Table.get_set {n : Nat} (t : Table n) (i : Nat) (b : Byte) (j : Fin n) :
    (t.set i b).get j = if j.val = i then b else t.get j := by
  split
  next h => rw [← h, Table.get_set_same]
  next h => exact t.get_set_other i j b (Ne.symm h)

/-- Settles O29: a fill step sets one entry of STAGE and consumes the item. -/
theorem buildFillStoresTheItem : Obligations.BuildFillStoresTheItem := by
  intro s b rest hp hi hin
  refine ⟨buildFill b rest s, ?_, s.stage.get_set s.idx b, rfl⟩
  rw [coreStep_of_build hp, buildStep_of_item hi hin]

/-! ### What the checks report -/

theorem symbolFault_of_unprintable {syms : List Byte} {b : Byte} (h : firstUnprintable syms = some b) :
    symbolFault syms = some (.valUnprintableByte b) := by simp [symbolFault, h]

theorem symbolFault_of_repeat {syms : List Byte} {b : Byte} (hp : firstUnprintable syms = none)
    (h : firstRepeat [] syms = some b) : symbolFault syms = some (.valDuplicatedByte b) := by simp [symbolFault, hp, h]

theorem printable_eq_false_iff (b : Byte) : printable b = false ↔ ¬ (32 ≤ b.toNat ∧ b.toNat ≤ 126) := by
  rw [← printable_iff, Bool.not_eq_true]

section
variable {t : Table 32}

/-- Check 2 reports the unprintable entry at the lowest position (R105). -/
theorem Table.symbolFault_of_lowest_unprintable {i : Fin 32}
    (hi : ¬ (32 ≤ (t.get i).toNat ∧ (t.get i).toNat ≤ 126))
    (hlow : ∀ j < i, 32 ≤ (t.get j).toNat ∧ (t.get j).toNat ≤ 126) :
    symbolFault t.entries = some (.valUnprintableByte (t.get i)) :=
  symbolFault_of_unprintable <| firstUnprintable_at (by simp) ((printable_eq_false_iff _).2 hi) fun j hj =>
    (printable_iff _).2 (hlow ⟨j, by omega⟩ hj)

theorem Table.firstUnprintable_eq_none (hp : ∀ i, 32 ≤ (t.get i).toNat ∧ (t.get i).toNat ≤ 126) :
    firstUnprintable t.entries = none := by
  rw [firstUnprintable_none_iff]
  intro b hb
  obtain ⟨i, rfl⟩ := (t.mem_entries_iff b).1 hb
  exact hp i

/-- Check 3 reports the entry at the lowest position that repeats an earlier one (R106), once check 2 has passed (R107). -/
theorem Table.symbolFault_of_lowest_repeat (hp : ∀ i, 32 ≤ (t.get i).toNat ∧ (t.get i).toNat ≤ 126) {j : Fin 32}
    (hj : ∃ i < j, t.get i = t.get j) (hlow : ∀ k < j, ∀ i < k, t.get i ≠ t.get k) :
    symbolFault t.entries = some (.valDuplicatedByte (t.get j)) := by
  obtain ⟨i, hij, heq⟩ := hj
  refine symbolFault_of_repeat (Table.firstUnprintable_eq_none hp) <|
    firstRepeat_at (by simp) (.inr ⟨i.val, hij, heq⟩) fun k hk => ⟨List.not_mem_nil, fun l hl => ?_⟩
  exact hlow ⟨k, by omega⟩ hk ⟨l, by omega⟩ hl

/-- Printable and distinct entries pass the checks. -/
theorem Table.symbolFault_eq_none (hp : ∀ i, 32 ≤ (t.get i).toNat ∧ (t.get i).toNat ≤ 126)
    (hd : ∀ i j, t.get i = t.get j → i = j) : symbolFault t.entries = none := by
  refine (symbolFault_none_iff _).2 ⟨(firstUnprintable_none_iff _).1 (Table.firstUnprintable_eq_none hp), ?_⟩
  exact List.nodup_iff_injective_get.2 fun i j hij => Fin.cast_injective t.size_eq (hd (i.cast _) (j.cast _) hij)

end

theorem romSym_symbolFault (k : Builtin) : symbolFault (romSym k).entries = none :=
  Table.symbolFault_eq_none (romSym_printable k) (romSym_distinct k)

/-! ### The check step -/

/-- The state after the commit of a BUILD (R103): the whole new alphabet at once. -/
def State.committed (s : State) : State := State.complete { s with alpha := alphabetOf s.stage s.ordLatch } 0

section
variable {s : State}

theorem buildCheck_of_fault {r : FaultReport} (h : symbolFault s.stage.entries = some r) :
    buildCheck s = s.raise r := by simp [buildCheck, h]

theorem buildCheck_of_pass (h : symbolFault s.stage.entries = none) : buildCheck s = s.committed := by
  simp [buildCheck, h, State.committed]

theorem coreStep_of_check (hp : s.ph = .build) (hi : s.idx = 32) : coreStep s = .next (buildCheck s) := by
  rw [coreStep_of_build hp, buildStep_of_full hi]

end

/-- Settles O30: each outcome of the check step by what the checks report on the entries of STAGE. -/
theorem buildCheckFaultsOrCommits : Obligations.BuildCheckFaultsOrCommits := by
  intro s hph hidx
  rw [coreStep_of_check hph hidx]
  refine ⟨fun i hi hlow => ?_, fun hp => ⟨fun j hj hlow => ?_, fun hd => ?_⟩⟩
  · rw [buildCheck_of_fault (Table.symbolFault_of_lowest_unprintable hi hlow)]
    rfl
  · rw [buildCheck_of_fault (Table.symbolFault_of_lowest_repeat hp hj hlow)]
    rfl
  · have hwf := alphabetOf_wf s.stage s.ordLatch hp hd
    rw [buildCheck_of_pass (Table.symbolFault_eq_none hp hd)]
    exact ⟨s.committed, rfl, fun _ => rfl, hwf.inverse_hit, hwf.inverse_miss, rfl, rfl⟩

/-! ### The function build (R100) -/

/-- build gives an alphabet for 32 symbols that pass the checks. -/
theorem buildWhole_ok {syms : List Byte} {o : BitOrder} {a : Alphabet} (h : buildWhole syms o = .ok a) :
    ∃ sym : Table 32, sym.entries = syms ∧ symbolFault syms = none ∧ a = alphabetOf sym o := by
  unfold buildWhole at h
  split at h
  next hlen =>
    split at h
    · simp at h
    · exact ⟨⟨syms, hlen⟩, rfl, ‹_›, by simpa using h.symm⟩
  · simp at h

/-- build gives a fault for 32 symbols that do not pass the checks, and for any other number of symbols. -/
theorem buildWhole_error {syms : List Byte} {o : BitOrder} {r : FaultReport} (h : buildWhole syms o = .error r) :
    (∃ sym : Table 32, sym.entries = syms ∧ symbolFault syms = some r) ∨
    (syms.length ≠ 32 ∧ r = .valInvalidLength) := by
  unfold buildWhole at h
  split at h
  next hlen =>
    split at h
    · exact .inl ⟨⟨syms, hlen⟩, rfl, by simp_all⟩
    · simp at h
  · exact .inr ⟨‹_›, by simpa using h.symm⟩

/-! ### A BUILD from acceptance to its end -/

/-- A BUILD that was accepted in s with the operand o: STAGE has been filled to g, n items have been taken and the
items left still stand on IN. -/
def State.filling (s : State) (o : BitOrder) (g : Table 32) (n : Nat) (left : List Byte) : State :=
  { s.started .build with ordLatch := o, stage := g, idx := n, inp := left }

theorem State.filling_committed_completedAs (s : State) (o : BitOrder) (g : Table 32) (n : Nat) (left : List Byte) :
    s.completedAs (s.filling o g n left).committed 0 [] left where
  frame := ⟨rfl, rfl, rfl, rfl, rfl, rfl⟩
  status := State.complete_status _ 0 rfl rfl
  result := rfl
  errOffset := rfl
  errByte := rfl
  out := (List.append_nil _).symm
  inp := rfl

theorem State.filling_raise_faultedAs (s : State) (o : BitOrder) (g : Table 32) (n : Nat) (left : List Byte)
    (r : FaultReport) : s.faultedAs ((s.filling o g n left).raise r) r left where
  frame := ⟨rfl, rfl, rfl, rfl, rfl, rfl⟩
  status := State.raise_status _ r
  result := rfl
  errOffset := rfl
  errByte := rfl
  out := List.prefix_rfl
  inp := rfl
  alpha := rfl

section
variable {s : State} {o : BitOrder} {sym : Table 32} {syms rest : List Byte}

theorem step_build_of_length (h : s.readyFor (buildCommand o) syms rest) (hlen : syms.length = 32) :
    step s = .next (s.filling o s.stage 0 (syms ++ rest)) := by
  rw [step_readyFor h, exec_buildCommand, buildStart_of_length (s := { s with host := [] }) (h.length.trans hlen),
    ← h.offered]
  rfl

theorem step_build_of_wrong_length (h : s.readyFor (buildCommand o) syms rest) (hlen : syms.length ≠ 32) :
    step s = .next ((s.filling s.ordLatch s.stage 0 (syms ++ rest)).raise .valInvalidLength) := by
  rw [step_readyFor h, exec_buildCommand,
    buildStart_of_wrong_length (s := { s with host := [] }) (h.length.trans_ne hlen), ← h.offered]
  rfl

/-- The fill steps put all 32 symbols into STAGE. -/
theorem build_runsTo_filled (h : s.readyFor (buildCommand o) sym.entries rest) :
    s.runsTo 33 (s.filling o sym 32 rest) := by
  have hstage : stageAll s.stage 0 sym.entries = sym := Table.ext_entries (stageAll_full _ _ sym.size_eq)
  have hfill := fill_runsTo sym.entries (s := s.filling o s.stage 0 (sym.entries ++ rest)) ⟨h.released, rfl⟩ rfl rfl
    (by rw [sym.size_eq]; exact Nat.le_refl 32)
  rw [sym.size_eq] at hfill
  rw [← hstage]
  exact runsTo_succ (step_build_of_length h sym.size_eq) hfill

/-- The check step is the last one. -/
theorem build_runsTo_checked (h : s.readyFor (buildCommand o) sym.entries rest) :
    s.runsTo 34 (buildCheck (s.filling o sym 32 rest)) :=
  runsTo_add (build_runsTo_filled h) (runsTo_core ⟨h.released, rfl⟩ (coreStep_of_check rfl rfl))

/-- A BUILD of symbols that pass the checks completes with their alphabet. -/
theorem build_runsTo_completed (h : s.readyFor (buildCommand o) sym.entries rest)
    (hpass : symbolFault sym.entries = none) :
    ∃ t, s.runsTo 34 t ∧ s.completedAs t 0 [] rest ∧ t.alpha = alphabetOf sym o := by
  have hrun := build_runsTo_checked h
  rw [buildCheck_of_pass hpass] at hrun
  exact ⟨_, hrun, s.filling_committed_completedAs o sym 32 rest, rfl⟩

/-- A BUILD of 32 symbols that do not pass the checks has consumed them. -/
theorem build_runsTo_faulted {r : FaultReport} (h : s.readyFor (buildCommand o) sym.entries rest)
    (hfault : symbolFault sym.entries = some r) : ∃ t, s.runsTo 34 t ∧ s.faultedAs t r rest := by
  have hrun := build_runsTo_checked h
  rw [buildCheck_of_fault hfault] at hrun
  exact ⟨_, hrun, s.filling_raise_faultedAs o sym 32 rest r⟩

/-- A BUILD with another LEN than 32 has faulted at acceptance; the CORE idles from then on. -/
theorem build_runsTo_faulted_of_wrong_length (h : s.readyFor (buildCommand o) syms rest) (hlen : syms.length ≠ 32)
    (k : Nat) : ∃ t, s.runsTo (k + 1) t ∧ s.faultedAs t .valInvalidLength (syms ++ rest) := by
  have hfaulted := s.filling_raise_faultedAs s.ordLatch s.stage 0 (syms ++ rest) .valInvalidLength
  have hidles := runsTo_idle ⟨hfaulted.frame.rst.trans h.released, hfaulted.frame.host⟩ hfaulted.frame.idle k
  exact ⟨_, runsTo_succ (step_build_of_wrong_length h hlen) hidles, hfaulted⟩

end

/-- Settles O31: the outcomes of build are those of the check step and of the length check at acceptance. -/
theorem buildRunIsTheFunction : Obligations.BuildRunIsTheFunction := by
  refine fun s o syms rest h => ⟨fun a ha => ?_, fun r hr => ?_⟩
  · obtain ⟨sym, rfl, hpass, rfl⟩ := buildWhole_ok ha
    exact build_runsTo_completed h hpass
  · obtain ⟨sym, rfl, hfault⟩ | ⟨hlen, rfl⟩ := buildWhole_error hr
    · rw [if_pos sym.size_eq]
      exact build_runsTo_faulted h hfault
    · rw [if_neg hlen]
      exact build_runsTo_faulted_of_wrong_length h hlen 33

/-- Settles O32: a built-in string passes the checks, and both paths take the decode table to be its inverse. -/
theorem buildOfABuiltinEqualsLoadb : Obligations.BuildOfABuiltinEqualsLoadb := by
  intro s k rest h
  obtain ⟨t, hrun, hdone, halpha⟩ := build_runsTo_completed h (romSym_symbolFault k)
  exact ⟨t, loadBuiltin k s, hrun, exec_loadbCommand k s, halpha, hdone.status, loadBuiltin_status k s⟩

end Sys2Proof.Machine
end

section
/-! The length arithmetic (41_length.md): the exact length of ENCLEN (R120 to R122) and the bound of DECLEN (R123 to
R125), as functions and as commands. -/

namespace Sys2Proof.Machine

/-! ### The functions -/

/-- The table X of R121, entry by entry. -/
theorem extraSymbols_of_table {r x : Nat} (hx : [0, 2, 4, 5, 7][r]? = some x) : extraSymbols r = x := by
  match r, hx with
  | 0, hx | 1, hx | 2, hx | 3, hx | 4, hx => exact Option.some.inj hx

theorem encodedSize_of_table {r x : Nat} (hr : r < 5) (hx : [0, 2, 4, 5, 7][r]? = some x) (q : Nat) :
    encodedSize (5 * q + r) = 8 * q + x := by
  have hq : (5 * q + r) / 5 = q := by omega
  have hm : (5 * q + r) % 5 = r := by omega
  rw [encodedSize, hq, hm, extraSymbols_of_table hx]

theorem encodedLength_of_table {r x : Nat} (hr : r < 5) (hx : [0, 2, 4, 5, 7][r]? = some x) (w q : Nat) :
    encodedLength w (5 * q + r) = if 8 * q + x ≤ 2 ^ w - 1 then some (8 * q + x) else none := by
  rw [encodedLength, encodedSize_of_table hr hx, maxLen]

theorem encodedLength_of_le_threshold {w n : Nat} (h : n ≤ 5 * (2 ^ w - 1) / 8) :
    encodedLength w n = some (encodedSize n) :=
  encodedLength_eq_some.2 ⟨(encodedSize_le_maxLen_iff w n).2 h, rfl⟩

theorem encodedLength_of_threshold_lt {w n : Nat} (h : 5 * (2 ^ w - 1) / 8 < n) : encodedLength w n = none :=
  encodedLength_eq_none.2 <| Nat.lt_of_not_le fun hle => Nat.not_le_of_lt h ((encodedSize_le_maxLen_iff w n).1 hle)

/-- Settles O35: the closed form by the table, its ceiling and its threshold; the widths named are instances. -/
theorem encodedLengthIsCeilUpToTheThreshold : Obligations.EncodedLengthIsCeilUpToTheThreshold :=
  ⟨fun w q _ _ hr hx => encodedLength_of_table hr hx w q,
    fun _ n h => encodedSize_eq n ▸ encodedLength_of_le_threshold h,
    fun _ _ h => encodedLength_of_threshold_lt h,
    encodedLength_of_le_threshold (by decide), encodedLength_of_threshold_lt (by decide),
    encodedLength_of_le_threshold (by decide), encodedLength_of_threshold_lt (by decide),
    encodedLength_of_le_threshold (by decide), encodedLength_of_threshold_lt (by decide),
    encodedLength_of_le_threshold (by decide), encodedLength_of_threshold_lt (by decide)⟩

/-- The bound counts one byte for each left-over symbol, where 5/8 of one is exact: it is ceil(3*(n%8)/8) above the
exact count (R124, R125). -/
theorem decodedLength_eq_exact_add (n : Nat) : decodedLength n = 5 * n / 8 + (3 * (n % 8) + 7) / 8 := by
  rw [decodedLength]; omega

/-- The bound is not below the exact count (R125). -/
theorem exactDecoded_le_decodedLength (n : Nat) : 5 * n / 8 ≤ decodedLength n :=
  decodedLength_eq_exact_add n ▸ Nat.le_add_right _ _

theorem exactDecoded_eq_decodedLength_iff (n : Nat) : 5 * n / 8 = decodedLength n ↔ n % 8 = 0 := by
  rw [decodedLength_eq_exact_add]; omega

/-- Decoding the symbols of n bytes gives n bytes back (R125). -/
theorem exactDecoded_encodedSize (n : Nat) : 5 * encodedSize n / 8 = n := by
  rw [encodedSize_eq]; omega

/-- Settles O37: one lemma for each relation. -/
theorem exactDecodedCountAndItsBounds : Obligations.ExactDecodedCountAndItsBounds := fun n =>
  ⟨exactDecoded_le_decodedLength n, decodedLength_le n, exactDecoded_eq_decodedLength_iff n, exactDecoded_encodedSize n⟩

/-! ### The commands -/

theorem exec_enclen_of_fits {s : State} {m : Nat} (h : encodedLength s.lenW s.len = some m) :
    exec .enclen s = .next (s.prologue.complete m) := by simp only [exec, execEnclen, h]

theorem exec_enclen_of_overflow {s : State} (h : encodedLength s.lenW s.len = none) :
    exec .enclen s = .next (s.prologue.raise .lenOverflow) := by simp only [exec, execEnclen, h]

theorem exec_declen (s : State) : exec .declen s = .next (s.prologue.complete (decodedLength s.len)) := rfl

/-- STATUS after a command that completes at once. -/
theorem State.prologue_complete_status (s : State) (m : Nat) : (s.prologue.complete m).status = 0x02#8 :=
  State.complete_status _ m rfl rfl

/-- STATUS after LEN_OVERFLOW (R181, R187). -/
theorem State.raise_lenOverflow_status (s : State) : (s.raise .lenOverflow).status = 0x64#8 :=
  BitVec.eq_of_toNat_eq (s.raise_status .lenOverflow)

/-- Settles O33: the length is the value of R121, and it fits. -/
theorem enclenGivesTheExactLength : Obligations.EnclenGivesTheExactLength := by
  refine ⟨rfl, fun s q r x hlen hr hx hfit => ?_⟩
  have hsome : encodedLength s.lenW s.len = some (8 * q + x) := by
    rw [hlen, encodedLength_of_table hr hx, if_pos hfit]
  exact ⟨_, exec_enclen_of_fits hsome, s.prologue_complete_status _, rfl⟩

/-- Settles O34: above the threshold there is no length that fits. -/
theorem enclenOverflowsAboveTheThreshold : Obligations.EnclenOverflowsAboveTheThreshold := fun s h =>
  ⟨_, exec_enclen_of_overflow (encodedLength_of_threshold_lt h), s.prologue.raise_lenOverflow_status, rfl⟩

/-- Settles O36: DECLEN completes in every state, with the bound. -/
theorem declenGivesTheBound : Obligations.DeclenGivesTheBound :=
  ⟨rfl, exactDecoded_le_decodedLength, fun s => ⟨_, exec_declen s, s.prologue_complete_status _, rfl⟩⟩

end Sys2Proof.Machine
end

section
/-! The encoder (42_encoder.md): the acceptance of ENCODE (R131), the byte step in each order (R132, R133), the finish
step (R135), the whole run (R136) and what an ENCODE puts out (R137). -/

namespace Sys2Proof.Machine

/-! ### The whole run -/

/-- Settles O46: the run to completion, with RESULT as the ceiling. -/
theorem encodeRunIsTheFunction : Obligations.EncodeRunIsTheFunction := by
  intro s bytes rest h hlen
  rw [← encodedSize_eq]
  exact encode_runsTo_completed h ((encodedSize_le_maxLen_iff s.lenW bytes.length).2 hlen)

/-! ### Acceptance -/

theorem exec_encode_of_fits {s : State} {m : Nat} (h : encodedLength s.lenW s.len = some m) :
    exec .encode s = .next { s.prologue with ph := .enc } := by simp only [exec, execEncode, h]

theorem exec_encode_of_overflow {s : State} (h : encodedLength s.lenW s.len = none) :
    exec .encode s = .next (s.prologue.raise .lenOverflow) := by simp only [exec, execEncode, h]

/-- Settles O38: up to the threshold the encoded length fits, and the prologue has cleared the datapath. -/
theorem encodeStartsWhenTheLengthFits : Obligations.EncodeStartsWhenTheLengthFits :=
  ⟨rfl, fun _ h => exec_encode_of_fits (encodedLength_of_le_threshold h)⟩

/-- Settles O39: above the threshold there is no length that fits. -/
theorem encodeOverflowFaultsBeforeAnyInput : Obligations.EncodeOverflowFaultsBeforeAnyInput := fun s h =>
  ⟨_, exec_encode_of_overflow (encodedLength_of_threshold_lt h), s.prologue.raise_lenOverflow_status, rfl⟩

/-! ### The byte step -/

/-- The packer in Normal order as arithmetic: the byte takes the low 8 bits below ACC. -/
theorem encPack_normal_arith (acc pend : Nat) (b : Byte) :
    encPack .normal acc pend b =
      { values := (List.range ((pend + 8) / 5)).map fun j =>
          mask5 ((acc * 256 + b.toNat) / 2 ^ (pend + 8 - 5 * (j + 1)))
        acc := (acc * 256 + b.toNat) % 2 ^ ((pend + 8) % 5)
        pend := (pend + 8) % 5 } := by
  simp only [encPack_normal, or_eq_add_low _ _ _ b.isLt, Nat.shiftRight_eq_div_pow, Nat.reducePow]

/-- The packer in Inverted order as arithmetic: the byte goes above the pending bits, which ACC does not exceed (R26). -/
theorem encPack_inverted_arith {acc pend : Nat} (h : acc < 2 ^ pend) (b : Byte) :
    encPack .inverted acc pend b =
      { values := (List.range ((pend + 8) / 5)).map fun j => mask5 ((acc + b.toNat * 2 ^ pend) / 32 ^ j)
        acc := (acc + b.toNat * 2 ^ pend) / 32 ^ ((pend + 8) / 5)
        pend := (pend + 8) % 5 } := by
  simp only [encPack_inverted, or_eq_add_high _ _ _ h, Nat.shiftRight_eq_div_pow, Nat.pow_mul, Nat.reducePow]

/-- The byte step before a ready sink: the item goes in and the symbols of the packed values go out. -/
theorem coreStep_of_encode_byte {s : State} {b : Byte} {rest : List Byte} (hp : s.ph = .enc) (hi : s.idx < s.len)
    (hin : s.inp = b :: rest) (hr : s.outReady = true) {d : Drained}
    (hd : encPack s.alpha.order s.acc.toNat s.pend.toNat b = d) :
    coreStep s = .next { s with
      acc := toAcc d.acc
      pend := toPend d.pend
      out := s.out ++ symbolsOf s.alpha d.values
      outcnt := s.outcnt + d.values.length
      inp := rest
      idx := s.idx + 1 } := by
  rw [coreStep_of_enc hp, encStep_of_item hi hin]
  simp [encodeByte, hd, hr, State.putOut, State.consume]

/-- Settles O40: the byte step with the packer's arithmetic in Normal order. -/
theorem encodeByteStepNormal : Obligations.EncodeByteStepNormal := by
  rintro s b rest _ _ hp ho hi hin hr rfl rfl
  rw [coreStep_of_encode_byte hp hi hin hr (ho ▸ encPack_normal_arith _ _ b)]
  simp [symbolsOf, toAcc, toPend, mask5, Function.comp_def]

/-- Settles O41: the byte step with the packer's arithmetic in Inverted order. -/
theorem encodeByteStepInverted : Obligations.EncodeByteStepInverted := by
  rintro s b rest _ _ hp ho hi hin hr hacc rfl rfl
  rw [coreStep_of_encode_byte hp hi hin hr (ho ▸ encPack_inverted_arith hacc b)]
  simp [symbolsOf, toAcc, toPend, mask5, Function.comp_def]

/-! ### The finish step -/

theorem encLast_zero (o : BitOrder) (acc : Nat) : encLast o acc 0 = [] := rfl

/-- The short symbol's value: zeros fill the low bits in Normal order, the high bits in Inverted order. -/
theorem encLast_of_pending (o : BitOrder) (acc : Nat) {pend : Nat} (h : 0 < pend) :
    encLast o acc pend = [mask5 (if o = .normal then acc * 2 ^ (5 - pend) else acc)] := by
  cases o <;> simp [encLast, h, Nat.shiftLeft_eq]

@[simp] theorem State.putOut_nil (s : State) : s.putOut [] = s := by simp [State.putOut]

/-- With no bits pending the finish step needs no sink. -/
theorem encodeFinish_of_nothing_pending {s : State} (h : s.pend = 0) : encodeFinish s = s.complete s.outcnt := by
  simp [encodeFinish, h, encLast_zero, symbolsOf, State.sinkTakes]

theorem encodeFinish_of_pending {s : State} (h : s.pend ≠ 0) (hr : s.outReady = true) :
    encodeFinish s = (s.putOut [encRead s.alpha (mask5
      (if s.alpha.order = .normal then s.acc.toNat * 2 ^ (5 - s.pend.toNat) else s.acc.toNat))]).complete
        (s.outcnt + 1) := by
  have hpos : 0 < s.pend.toNat := Nat.pos_of_ne_zero fun h0 => h (BitVec.eq_of_toNat_eq h0)
  rw [encodeFinish_of_ready hr, encLast_of_pending _ _ hpos]
  rfl

/-- Settles O42, by whether bits are pending. -/
theorem encodeFinishPutsTheShortSymbol : Obligations.EncodeFinishPutsTheShortSymbol := by
  intro s hp hi _ _
  rw [coreStep_of_enc hp, encStep_of_full hi]
  refine ⟨fun h0 => ?_, fun h0 hr => ?_⟩
  · rw [encodeFinish_of_nothing_pending h0]
    rfl
  · rw [encodeFinish_of_pending h0 hr]
    rfl

/-! ### What an ENCODE puts out -/

/-- From s to t nothing but symbols of the active alphabet is appended to OUT. -/
def State.AppendsSymbols (s t : State) : Prop := ∃ put, t.out = s.out ++ put ∧ ∀ b ∈ put, ∃ i, s.alpha.enc.get i = b

theorem State.appendsSymbols_of_out_eq {s t : State} (h : t.out = s.out) : s.AppendsSymbols t :=
  ⟨[], by simp [h], by simp⟩

theorem enc_get_of_mem_symbolsOf {a : Alphabet} {vs : List Val5} {b : Byte} (h : b ∈ symbolsOf a vs) :
    ∃ i, a.enc.get i = b := by
  obtain ⟨v, -, rfl⟩ := List.mem_map.1 h
  exact ⟨v.toFin, rfl⟩

/-- A step that has symbols to put out appends symbols, whether or not the sink holds it. -/
theorem State.Moves.appendsSymbols {s t : State} {vs : List Val5} {left : List Byte}
    (h : s.Moves t (symbolsOf s.alpha vs) left) : s.AppendsSymbols t := by
  obtain ⟨-, hout, -⟩ | ⟨-, hold⟩ := h
  · exact ⟨_, hout, fun _ => enc_get_of_mem_symbolsOf⟩
  · exact State.appendsSymbols_of_out_eq (by rw [hold])

theorem encStep_appendsSymbols (s : State) : s.AppendsSymbols (encStep s) := by
  obtain hold | ⟨b, rest, -, -, byte⟩ | ⟨-, finish⟩ := encStep_cases s
  · exact State.appendsSymbols_of_out_eq (by rw [hold])
  · rw [byte]
    exact (encodeByte_moves b rest s).appendsSymbols
  · rw [finish]
    exact (encodeFinish_moves s).appendsSymbols

theorem coreStep_appendsSymbols {s t : State} (hp : s.ph = .enc) (ht : coreStep s = .next t) : s.AppendsSymbols t := by
  obtain rfl := Host.Outcome.next.inj ((coreStep_of_enc hp).symm.trans ht)
  exact encStep_appendsSymbols s

/-- Of the host's events only a tick, the CORE's own step, puts out anything. -/
theorem hostStep_appendsSymbols {e : HostEvent} {s t : State} (hp : s.ph = .enc) (ht : hostStep e s = .next t) :
    s.AppendsSymbols t := by
  obtain ⟨_, -, -, hcmd⟩ | ⟨_, -, -, rfl⟩ | ⟨-, rfl⟩ | ⟨-, hcore⟩ | ⟨_, _, rfl⟩ := hostStep_next_cases ht
  · exact State.appendsSymbols_of_out_eq (acceptCommand_out hcmd)
  · exact State.appendsSymbols_of_out_eq rfl
  · exact State.appendsSymbols_of_out_eq (by rw [State.resetCore_out, hostSide_out])
  · exact coreStep_appendsSymbols hp hcore
  · exact State.appendsSymbols_of_out_eq rfl

theorem step_appendsSymbols {s t : State} (hp : s.ph = .enc) (ht : step s = .next t) : s.AppendsSymbols t := by
  obtain ⟨-, rfl⟩ | ⟨-, -, hcore⟩ | ⟨_, rest, -, -, hhost⟩ := step_next_cases ht
  · exact State.appendsSymbols_of_out_eq (resetStep_out s)
  · exact coreStep_appendsSymbols hp hcore
  · exact (hostStep_appendsSymbols (s := { s with host := rest }) hp hhost :)

/-- Settles O43: what is put out are symbols, and under R24 a symbol is printable. -/
theorem encodePutsOutSymbolsOnly : Obligations.EncodePutsOutSymbolsOnly := by
  intro s t hinv hp ht
  obtain ⟨put, hout, hsymbols⟩ := step_appendsSymbols hp ht
  refine ⟨put, hout, fun b hb => ?_⟩
  obtain ⟨i, rfl⟩ := hsymbols b hb
  exact ⟨⟨i, rfl⟩, hinv.alphabet.printable i⟩

end Sys2Proof.Machine
end

section
/-! The decoder (43_decoder.md): the acceptance of DECODE (R151), the symbol step in each order (R152 to R154), the
finish step (R156), the whole run (R158) and the round trip with ENCODE (R159). -/

namespace Sys2Proof.Machine

/-! ### Acceptance and the finish step -/

/-- Settles O47: DECODE has no length check, and the prologue clears the datapath. -/
theorem decodeStartsWithAnyLength : Obligations.DecodeStartsWithAnyLength := ⟨rfl, fun _ => rfl⟩

/-- Settles O51: the finish step reads OUTCNT only. -/
theorem decodeFinishDropsTheLeftOverBits : Obligations.DecodeFinishDropsTheLeftOverBits := by
  intro s hp hi
  rw [coreStep_of_dec hp, decStep_of_full hi]
  rfl

/-! ### The symbol step -/

theorem coreStep_of_decode_invalid {s : State} {c : Byte} {rest : List Byte} (hp : s.ph = .dec) (hi : s.idx < s.len)
    (hin : s.inp = c :: rest) (hs : decRead s.alpha c = sentinel) : coreStep s = .next (decodeInvalid c rest s) := by
  rw [coreStep_of_dec hp, decStep_of_item hi hin, decodeSymbol_of_sentinel hs]

/-- Settles O48: the step is the fault of part 1. -/
theorem decodeInvalidSymbolFaults : Obligations.DecodeInvalidSymbolFaults := fun _ _ _ => coreStep_of_decode_invalid

theorem ne_sentinel_of_toNat_lt {b : Byte} (h : b.toNat < 32) : b ≠ sentinel := by
  rintro rfl
  exact absurd h (by decide)

/-- The symbol step whose byte, if there is one, the sink takes: the item goes in and the byte goes out. -/
theorem coreStep_of_decode_value {s : State} {c : Byte} {rest : List Byte} (hp : s.ph = .dec) (hi : s.idx < s.len)
    (hin : s.inp = c :: rest) (hv : (decRead s.alpha c).toNat < 32) {u : Unpacked}
    (hu : decUnpack s.alpha.order s.acc.toNat s.pend.toNat (decRead s.alpha c).toNat = u)
    (ht : s.sinkTakes u.bytes = true) :
    coreStep s = .next { s with
      acc := toAcc u.acc
      pend := toPend u.pend
      out := s.out ++ u.bytes
      outcnt := s.outcnt + u.bytes.length
      inp := rest
      idx := s.idx + 1 } := by
  rw [coreStep_of_dec hp, decStep_of_item hi hin, decodeSymbol_of_value (ne_sentinel_of_toNat_lt hv) hv]
  simp [decodeValue, hu, ht, State.putOut, State.consume]

/-- The unpacker in Normal order as arithmetic: the value takes the low 5 bits below ACC. -/
theorem decUnpack_normal_arith (acc pend : Nat) {v : Nat} (hv : v < 32) :
    decUnpack .normal acc pend v =
      { bytes := if 8 ≤ pend + 5 then [mask8 ((acc * 32 + v) / 2 ^ (pend + 5 - 8))] else []
        acc := if 8 ≤ pend + 5 then (acc * 32 + v) % 2 ^ (pend + 5 - 8) else acc * 32 + v
        pend := if 8 ≤ pend + 5 then pend + 5 - 8 else pend + 5 } := by
  have hmerge : decMerge .normal acc pend v = acc * 32 + v := or_eq_add_low acc v 5 hv
  simp only [decUnpack, hmerge, lowBits_eq, Nat.shiftRight_eq_div_pow]
  split <;> rfl

/-- The unpacker in Inverted order as arithmetic: the value goes above the pending bits, which ACC does not exceed
(R26). -/
theorem decUnpack_inverted_arith {acc pend : Nat} (h : acc < 2 ^ pend) (v : Nat) :
    decUnpack .inverted acc pend v =
      { bytes := if 8 ≤ pend + 5 then [mask8 (acc + v * 2 ^ pend)] else []
        acc := if 8 ≤ pend + 5 then (acc + v * 2 ^ pend) / 256 else acc + v * 2 ^ pend
        pend := if 8 ≤ pend + 5 then pend + 5 - 8 else pend + 5 } := by
  have hmerge : decMerge .inverted acc pend v = acc + v * 2 ^ pend := or_eq_add_high acc v pend h
  simp only [decUnpack, hmerge, Nat.shiftRight_eq_div_pow, Nat.reducePow]
  split <;> rfl

/-- A step that completes no byte needs no sink (R177). -/
theorem State.sinkTakes_byte {s : State} {p : Nat} (h : s.outReady = true ∨ p < 8) (b : Byte) :
    s.sinkTakes (if 8 ≤ p then [b] else []) = true := by
  obtain hr | hp := h
  · exact sinkTakes_ready s _ hr
  · rw [if_neg (Nat.not_le_of_lt hp)]
    rfl

/-- Settles O49: the symbol step with the unpacker's arithmetic in Normal order. -/
theorem decodeSymbolStepNormal : Obligations.DecodeSymbolStepNormal := by
  rintro s c rest _ _ _ hp ho hi hin rfl hv rfl rfl hsink
  rw [coreStep_of_decode_value hp hi hin hv (ho ▸ decUnpack_normal_arith _ _ hv) (State.sinkTakes_byte hsink _)]
  simp only [toAcc, toPend, mask8, apply_ite List.length, List.length_cons, List.length_nil, Nat.zero_add]

/-- Settles O50: the symbol step with the unpacker's arithmetic in Inverted order. -/
theorem decodeSymbolStepInverted : Obligations.DecodeSymbolStepInverted := by
  rintro s c rest _ _ _ hp ho hi hin hacc rfl hv rfl rfl hsink
  rw [coreStep_of_decode_value hp hi hin hv (ho ▸ decUnpack_inverted_arith hacc _) (State.sinkTakes_byte hsink _)]
  simp only [toAcc, toPend, mask8, apply_ite List.length, List.length_cons, List.length_nil, Nat.zero_add]

/-! ### The whole run -/

/-- Settles O53: the function gives bytes when every item is a symbol, and then the run completes with them. -/
theorem decodeRunIsTheFunction : Obligations.DecodeRunIsTheFunction := by
  intro s syms rest bytes hw h hok
  obtain ⟨hvalid, rfl⟩ := decodeWhole_ok hok
  exact decode_runsTo_completed hw h hvalid

theorem decodeWhole_of_invalid {a : Alphabet} {syms : List Byte} {i : Nat} {c : Byte} (hi : syms[i]? = some c)
    (hc : decRead a c = sentinel)
    (hl : ∀ (j : Nat) (d : Byte), j < i → syms[j]? = some d → decRead a d ≠ sentinel) :
    decodeWhole a syms = .error (.decInvalidByte i c) := by
  rw [decodeWhole, firstInvalid_at hi hc hl, Nat.zero_add]

/-- The state of a DECODE that has taken n items (R152 to R154): acc and pend are what it holds back, put is what it has
put out, and the items left still stand on IN. -/
def State.unpacking (s : State) (acc : BitVec 12) (pend : BitVec 4) (put : List Byte) (n : Nat) (left : List Byte) :
    State :=
  { s.started .dec with
    acc := acc, pend := pend, out := s.out ++ put, outcnt := put.length, idx := n, inp := left }

theorem State.unpacking_invalid_faultedAs (s : State) (acc : BitVec 12) (pend : BitVec 4) (put : List Byte) (n : Nat)
    (c : Byte) (left : List Byte) :
    s.faultedAs (decodeInvalid c left (s.unpacking acc pend put n (c :: left))) (.decInvalidByte n c) left where
  frame := ⟨rfl, rfl, rfl, rfl, rfl, rfl⟩
  status := State.raise_status _ _
  result := rfl
  errOffset := rfl
  errByte := rfl
  out := List.prefix_append _ _
  inp := rfl
  alpha := rfl

/-- The acceptance and the symbol steps on items that come first and are symbols of the alphabet. -/
theorem decode_runsTo_unpacking {s : State} {pre post rest : List Byte} (hw : s.alpha.Wf)
    (h : s.readyFor .decode (pre ++ post) rest) (hv : ∀ d ∈ pre, decRead s.alpha d ≠ sentinel) :
    ∃ acc pend put, s.runsTo (pre.length + 1) (s.unpacking acc pend put pre.length (post ++ rest)) := by
  have hin : s.inp = pre ++ (post ++ rest) := h.offered.trans (List.append_assoc pre post rest)
  have hlen : 0 + pre.length ≤ s.len := by simp [h.length]
  have hrun := dec_runsTo pre (s := s.started .dec) hw ⟨h.released, rfl⟩ rfl h.sink hin hlen (Nat.zero_lt_succ _)
    Nat.one_pos hv
  generalize decAll _ _ _ _ = u at hrun
  exact ⟨toAcc u.acc, toPend u.pend, u.bytes,
    runsTo_succ (step_decode h) (by simpa [State.unpacking, State.started] using hrun)⟩

/-- A DECODE whose first invalid item is c has consumed c and none of the items behind it. -/
theorem decode_runsTo_faulted {s : State} {pre post rest : List Byte} {c : Byte} (hw : s.alpha.Wf)
    (h : s.readyFor .decode (pre ++ c :: post) rest) (hv : ∀ d ∈ pre, decRead s.alpha d ≠ sentinel)
    (hc : decRead s.alpha c = sentinel) :
    ∃ t, s.runsTo (pre.length + 2) t ∧ s.faultedAs t (.decInvalidByte pre.length c) (post ++ rest) := by
  obtain ⟨acc, pend, put, hrun⟩ := decode_runsTo_unpacking hw h hv
  have hlen : pre.length < s.len := by simp [h.length]
  have hfault := runsTo_core (s := s.unpacking acc pend put pre.length (c :: (post ++ rest))) ⟨h.released, rfl⟩
    (coreStep_of_decode_invalid rfl hlen rfl hc)
  exact ⟨_, runsTo_add (k := 1) hrun hfault,
    s.unpacking_invalid_faultedAs acc pend put pre.length c (post ++ rest)⟩

/-- Settles O54: the items are cut at the first invalid one. -/
theorem decodeRunFaultsAtTheFirstInvalidItem : Obligations.DecodeRunFaultsAtTheFirstInvalidItem := by
  intro s syms rest i c hw h hi hc hl
  refine ⟨decodeWhole_of_invalid hi hc hl, ?_⟩
  obtain ⟨hlt, rfl⟩ := List.getElem?_eq_some_iff.1 hi
  have hcut : syms = syms.take i ++ syms[i] :: syms.drop (i + 1) := by
    rw [List.getElem_cons_drop, List.take_append_drop]
  have hv : ∀ d ∈ syms.take i, decRead s.alpha d ≠ sentinel := by
    intro d hd
    obtain ⟨j, hj, rfl⟩ := List.mem_take_iff_getElem.1 hd
    exact hl j _ (by omega) (List.getElem?_eq_getElem _)
  have hrun := decode_runsTo_faulted hw (hcut ▸ h) hv hc
  rwa [List.length_take_of_le (Nat.le_of_lt hlt)] at hrun

/-! ### The round trip -/

/-- The round trip of the functions (R159): the symbols of the values are valid and stand for the values. -/
theorem decodeWhole_encodeWhole {a : Alphabet} (h : a.Wf) (bytes : List Byte) :
    decodeWhole a (encodeWhole a bytes) = .ok bytes := by
  have hvalid : firstInvalid a 0 (encodeWhole a bytes) = none :=
    (firstInvalid_none a 0 _).2 (List.forall_mem_map.2 fun v _ => h.decRead_encRead_ne v)
  have hvalues : (encodeWhole a bytes).map (valueOf a) = encodeValues a.order bytes := by
    simp [encodeWhole, symbolsOf, Function.comp_def, h.valueOf_encRead]
  rw [decodeWhole, hvalid, hvalues, decodeBytes_encodeValues]

theorem encodeWhole_length (a : Alphabet) (bytes : List Byte) :
    (encodeWhole a bytes).length = encodedSize bytes.length := by
  rw [encodeWhole, symbolsOf_length, encodeValues_length]

/-- The host has written to LEN the number of the items it offers and is about to write the command i. -/
def State.lengthWritten (s : State) (i : Instr) : State :=
  { s with len := s.inp.length, host := [.write 0 (encode i).toNat] }

section
variable {s : State} {i : Instr} {m : Nat} (hp : s.ph = .idle)
  (he : s.nextEvent (.write 2 m) [.write 0 (encode i).toNat])
include hp he

theorem step_lengthWritten (hm : m = s.inp.length) (hfit : m ≤ maxLen s.lenW) : step s = .next (s.lengthWritten i) := by
  subst hm
  exact (lenWriteTakesTheValueWhenIdle s _ _ he hfit).1 (not_busy_of_ph hp)

theorem State.lengthWritten_readyFor (hr : s.outReady = true) : (s.lengthWritten i).readyFor i s.inp [] where
  idle := hp
  released := he.1
  script := rfl
  offered := (List.append_nil s.inp).symm
  length := rfl
  sink := hr

end

/-- From an idle CORE: the write of LEN and a DECODE of the symbols of some bytes put the bytes out. -/
theorem decode_encodeWhole_runsTo {s : State} {bytes : List Byte} {m : Nat} (hw : s.alpha.Wf) (hp : s.ph = .idle)
    (hr : s.outReady = true) (hin : s.inp = encodeWhole s.alpha bytes) (hm : m = s.inp.length)
    (hfit : m ≤ maxLen s.lenW) (he : s.nextEvent (.write 2 m) [.write 0 (encode .decode).toNat]) :
    ∃ u, s.runsTo (m + 3) u ∧ u.status = 0x02#8 ∧ u.result = bytes.length ∧ u.out = s.out ++ bytes := by
  have hwhole : decodeWhole s.alpha s.inp = .ok bytes := hin ▸ decodeWhole_encodeWhole hw bytes
  obtain ⟨u, hrun, hdone, -⟩ :=
    decodeRunIsTheFunction (s.lengthWritten .decode) _ _ _ hw (State.lengthWritten_readyFor hp he hr) hwhole
  refine ⟨u, hm ▸ runsTo_succ (step_lengthWritten hp he hm hfit) hrun, hdone.status, ?_, hdone.out⟩
  rw [hdone.result, hin, encodeWhole_length, exactDecoded_encodedSize]

/-- Settles O55: the run of the ENCODE, then that of the DECODE of its symbols. -/
theorem decodeOfEncodeRestoresTheBytes : Obligations.DecodeOfEncodeRestoresTheBytes := by
  intro s bytes rest hw h hlen
  have hfit : encodedSize bytes.length ≤ maxLen s.lenW := (encodedSize_le_maxLen_iff s.lenW bytes.length).2 hlen
  obtain ⟨t, hrun, hdone, halpha⟩ := encode_runsTo_completed h hfit
  have hsyms : t.out.drop s.out.length = encodeWhole t.alpha bytes := by
    rw [hdone.out, halpha, List.drop_left]
  have hresult : t.result = (t.out.drop s.out.length).length := by
    rw [hdone.result, hsyms, encodeWhole_length]
  have hfits : t.result ≤ maxLen t.lenW := by
    rwa [hdone.result, hdone.frame.lenW]
  exact ⟨t, hrun, hdone.status, hresult, decode_encodeWhole_runsTo (halpha ▸ hw) hdone.frame.idle
    (hdone.frame.outReady.trans h.sink) hsyms hresult hfits ⟨hdone.frame.rst.trans h.released, rfl⟩⟩

end Sys2Proof.Machine
end

section
/-! What the CORE's own step does to the operation that runs (44_system.md R171, R176, R177): it takes one item, ends the
operation, or waits. From it follow when the CORE holds, when PH changes, and that a supplied operation ends. -/

namespace Sys2Proof.Machine

/-! ### When the CORE's own step answers -/

/-- DEC_LUT has a rule for the item that comes next: the sentinel or a 5-bit value (70_reset_and_hazards.md R218). -/
def State.Covered (s : State) : Prop :=
  ∀ c rest, s.ph = .dec → s.idx < s.len → s.inp = c :: rest →
    decRead s.alpha c = sentinel ∨ (decRead s.alpha c).toNat < 32

section
variable {s t : State}

theorem State.Inv.covered (h : s.Inv) : s.Covered := fun _ _ _ _ _ =>
  or_iff_not_imp_left.2 h.alphabet.decRead_lt

theorem decStep_answers (hp : s.ph = .dec) (h : s.Covered) : ∃ t, decStep s = .next t := by
  obtain ⟨c, rest, hi, hin⟩ | hi | ⟨hi, hin⟩ := s.position_cases s.len
  · rw [decStep_of_item hi hin]
    by_cases hs : decRead s.alpha c = sentinel
    · exact ⟨_, decodeSymbol_of_sentinel hs rest⟩
    · exact ⟨_, decodeSymbol_of_value hs ((h c rest hp hi hin).resolve_left hs) rest⟩
  · exact ⟨_, decStep_of_full hi⟩
  · exact ⟨_, decStep_of_waits hi hin⟩

theorem coreStep_answers (h : s.Covered) : ∃ t, coreStep s = .next t := by
  cases hp : s.ph with
  | idle => exact ⟨_, coreStep_of_idle hp⟩
  | build => exact ⟨_, coreStep_of_build hp⟩
  | enc => exact ⟨_, coreStep_of_enc hp⟩
  | dec => rw [coreStep_of_dec hp]; exact decStep_answers hp h

/-- The one stop (log 5) comes only where no rule covers the item. -/
theorem State.covered_of_answers (h : coreStep s = .next t) : s.Covered := by
  intro c rest hp hi hin
  rw [coreStep_of_dec hp, decStep_of_item hi hin] at h
  obtain ⟨hs, -⟩ | ⟨-, hv, -⟩ := decodeSymbol_next h
  · exact .inl hs
  · exact .inr hv

/-- The CORE offers only items of a step that answers. -/
theorem State.covered_of_outValid (h : s.outValid = true) : s.Covered := by
  rw [State.outValid_iff, State.offered] at h
  split at h
  next hstep => exact State.covered_of_answers (s := { s with outReady := true }) hstep
  next => exact absurd rfl h
  next => exact absurd rfl h

/-! ### The three things the CORE's own step can do -/

/-- How many items the running operation takes: BUILD 32 (R101), ENCODE and DECODE LEN. -/
def State.quota (s : State) : Nat := if s.ph = .build then 32 else s.len

theorem State.quota_of_build (hp : s.ph = .build) : s.quota = 32 := if_pos hp

theorem State.quota_of_not_build (hp : s.ph ≠ .build) : s.quota = s.len := if_neg hp

theorem State.Inv.quota_eq (h : s.Inv) : s.quota = s.len := by
  by_cases hp : s.ph = .build
  · rw [State.quota_of_build hp, (h.building hp).1]
  · exact State.quota_of_not_build hp

theorem State.Inv.idx_le_len (h : s.Inv) (hp : s.ph ≠ .idle) : s.idx ≤ s.len := by
  cases hph : s.ph with
  | idle => exact absurd hph hp
  | build => obtain ⟨hlen, hidx, -⟩ := h.building hph; rwa [hlen]
  | enc => exact (h.encoding hph).1
  | dec => exact (h.decoding hph).1

/-- From s to t the CORE takes the next item and goes on with the operation. -/
structure State.TakesItem (s t : State) : Prop where
  room : s.idx < s.quota
  item : ∃ b, s.inp = b :: t.inp
  idx : t.idx = s.idx + 1
  ph : t.ph = s.ph
  len : t.len = s.len
  outReady : t.outReady = s.outReady
  rst : t.rst = s.rst
  host : t.host = s.host

/-- The rows of the table of R176 by which an operation that was accepted ends in t. -/
def State.Ends (s t : State) : Prop :=
  (s.ph = .build ∧ t.ph = .idle ∧ s.idx = 32 ∧ (t.done = true ∨ t.err = true)) ∨
  (s.ph = .enc ∧ t.ph = .idle ∧ s.idx = s.len ∧ t.done = true) ∨
  (s.ph = .dec ∧ t.ph = .idle ∧ s.idx = s.len ∧ t.done = true) ∨
  (s.ph = .dec ∧ t.ph = .idle ∧ s.idx < s.len ∧ t.err = true ∧ ∃ c rest, s.inp = c :: rest ∧ decRead s.alpha c = 0xFF#8)

/-- What the CORE waits for: a command, an item or the sink (R177). IDX above the quota is in no reachable state (log 9). -/
inductive State.Waits (s : State) : Prop
  | command (idle : s.ph = .idle)
  | item (unfinished : s.idx ≠ s.quota) (none_offered : s.idx < s.quota → s.inp = [])
  | sink (offers : s.outValid = true) (down : s.outReady = false)

/-- The CORE's own step, by what becomes of the operation. -/
inductive State.OwnStep (s : State) : State → Prop
  | takes {t : State} (h : s.TakesItem t) : State.OwnStep s t
  | ends {t : State} (h : s.Ends t) : State.OwnStep s t
  | holds (h : s.Waits) : State.OwnStep s s

/-- A step that puts out the items offered is itself when the sink takes them, else a hold. -/
theorem State.OwnStep.ite {items : List Byte} (hitems : s.offered = items) (h : s.OwnStep t) :
    s.OwnStep (if s.sinkTakes items then t else s) := by
  subst hitems
  split
  next => exact h
  next hheld =>
    have hsink := mt s.sinkTakes_offered_iff.2 hheld
    simp only [not_or, Bool.not_eq_false, Bool.not_eq_true] at hsink
    exact .holds (.sink hsink.1 hsink.2)

theorem buildStep_ownStep (hp : s.ph = .build) : s.OwnStep (buildStep s) := by
  have hq := State.quota_of_build hp
  obtain ⟨b, rest, hi, hin⟩ | hi | ⟨hi, hin⟩ := s.position_cases 32
  · rw [buildStep_of_item hi hin]
    exact .takes ⟨hq ▸ hi, ⟨b, hin⟩, rfl, rfl, rfl, rfl, rfl, rfl⟩
  · rw [buildStep_of_full hi]
    obtain ⟨_, -, fault⟩ | ⟨-, commit⟩ := buildCheck_cases s
    · rw [fault]
      exact .ends (.inl ⟨hp, rfl, hi, .inr rfl⟩)
    · rw [commit]
      exact .ends (.inl ⟨hp, rfl, hi, .inl rfl⟩)
  · rw [buildStep_of_waits hi hin]
    exact .holds (.item (hq ▸ hi) (hq ▸ hin))

theorem encStep_ownStep (hp : s.ph = .enc) : s.OwnStep (encStep s) := by
  have hq : s.quota = s.len := State.quota_of_not_build (by simp [hp])
  obtain ⟨b, rest, hi, hin⟩ | hi | ⟨hi, hin⟩ := s.position_cases s.len
  · rw [encStep_of_item hi hin]
    exact .ite (State.offered_encodeByte hp hi hin) (.takes ⟨hq ▸ hi, ⟨b, hin⟩, rfl, rfl, rfl, rfl, rfl, rfl⟩)
  · rw [encStep_of_full hi]
    exact .ite (State.offered_encodeFinish hp hi) (.ends (.inr (.inl ⟨hp, rfl, hi, rfl⟩)))
  · rw [encStep_of_waits hi hin]
    exact .holds (.item (hq ▸ hi) (hq ▸ hin))

theorem decStep_ownStep (hp : s.ph = .dec) (ht : decStep s = .next t) : s.OwnStep t := by
  have hq : s.quota = s.len := State.quota_of_not_build (by simp [hp])
  obtain ⟨c, rest, hi, hin⟩ | hi | ⟨hi, hin⟩ := s.position_cases s.len
  · rw [decStep_of_item hi hin] at ht
    obtain ⟨hs, rfl⟩ | ⟨hs, hv, rfl⟩ := decodeSymbol_next ht
    · exact .ends (.inr (.inr (.inr ⟨hp, rfl, hi, rfl, c, rest, hin, hs⟩)))
    · exact .ite (State.offered_decodeValue hp hi hin hs hv)
        (.takes ⟨hq ▸ hi, ⟨c, hin⟩, rfl, rfl, rfl, rfl, rfl, rfl⟩)
  · obtain rfl := Host.Outcome.next.inj ((decStep_of_full hi).symm.trans ht)
    exact .ends (.inr (.inr (.inl ⟨hp, rfl, hi, rfl⟩)))
  · obtain rfl := Host.Outcome.next.inj ((decStep_of_waits hi hin).symm.trans ht)
    exact .holds (.item (hq ▸ hi) (hq ▸ hin))

/-- Every own step of the CORE takes an item, ends the operation or waits. -/
theorem coreStep_ownStep (ht : coreStep s = .next t) : s.OwnStep t := by
  obtain ⟨hp, rfl⟩ | ⟨hp, rfl⟩ | ⟨hp, rfl⟩ | ⟨hp, hdec⟩ := coreStep_next_cases ht
  · exact .holds (.command hp)
  · exact buildStep_ownStep hp
  · exact encStep_ownStep hp
  · exact decStep_ownStep hp hdec

theorem State.Ends.ph_eq_idle (h : s.Ends t) : t.ph = .idle := by
  obtain ⟨-, hp, -⟩ | ⟨-, hp, -⟩ | ⟨-, hp, -⟩ | ⟨-, hp, -⟩ := h
  all_goals exact hp

theorem State.Ends.running (h : s.Ends t) : s.ph ≠ .idle := by
  obtain ⟨hp, -⟩ | ⟨hp, -⟩ | ⟨hp, -⟩ | ⟨hp, -⟩ := h
  all_goals simp [hp]

theorem State.Ends.done_or_err (h : s.Ends t) : t.done = true ∨ t.err = true := by
  obtain ⟨-, -, -, hf⟩ | ⟨-, -, -, hd⟩ | ⟨-, -, -, hd⟩ | ⟨-, -, -, he, -⟩ := h
  · exact hf
  · exact .inl hd
  · exact .inl hd
  · exact .inr he

/-- Exactly one of DONE and ERR is 1 at the end: R38 excludes both. -/
theorem State.Ends.done_ne_err (h : s.Ends t) (hinv : t.Inv) : t.done ≠ t.err := by
  obtain ⟨-, -, hnotboth⟩ := hinv.one_flag
  intro heq
  rw [heq, Bool.and_self] at hnotboth
  obtain hd | he := h.done_or_err
  · simp [heq, hnotboth] at hd
  · simp [hnotboth] at he

/-! ### The holds -/

/-- A consuming phase in which no step is enabled holds (R177). -/
theorem coreStep_of_waits (hi : s.idx ≠ s.quota) (hin : s.idx < s.quota → s.inp = []) : coreStep s = .next s := by
  cases hp : s.ph with
  | idle => exact coreStep_of_idle hp
  | build =>
    rw [State.quota_of_build hp] at hi hin
    rw [coreStep_of_build hp, buildStep_of_waits hi hin]
  | enc =>
    rw [State.quota_of_not_build (by simp [hp])] at hi hin
    rw [coreStep_of_enc hp, encStep_of_waits hi hin]
  | dec =>
    rw [State.quota_of_not_build (by simp [hp])] at hi hin
    rw [coreStep_of_dec hp, decStep_of_waits hi hin]

theorem State.Moves.eq_of_held {items left : List Byte} (h : s.Moves t items left) (hheld : s.sinkTakes items = false) :
    t = s := by
  obtain ⟨htakes, -, -⟩ | ⟨-, hold⟩ := h
  · simp [htakes] at hheld
  · exact hold

/-- A step whose items the sink does not take is a hold (R177). -/
theorem coreStep_of_sink_down (hv : s.outValid = true) (hr : s.outReady = false) : coreStep s = .next s := by
  have hoff := s.outValid_iff.1 hv
  have hheld : s.sinkTakes s.offered = false := by
    rw [← Bool.not_eq_true, s.sinkTakes_offered_iff]
    simp [hv, hr]
  obtain ⟨t, ht⟩ := coreStep_answers (State.covered_of_outValid hv)
  suffices t = s from this ▸ ht
  obtain ⟨-, rfl⟩ | ⟨hp, -⟩ | ⟨hp, rfl⟩ | ⟨hp, hdec⟩ := coreStep_next_cases ht
  · rfl
  · exact absurd (State.offered_of_build hp) hoff
  · exact (encStep_moves hp).eq_of_held hheld
  · exact (decStep_moves hp hdec).eq_of_held hheld

/-- A step that changes nothing neither takes an item nor ends an operation, so it waits. -/
theorem State.waits_of_coreStep_eq (h : coreStep s = .next s) : s.Waits := by
  cases coreStep_ownStep h with
  | takes htakes => exact absurd htakes.idx (Nat.ne_of_lt (Nat.lt_succ_self _))
  | ends hends => exact absurd hends.ph_eq_idle hends.running
  | holds hwaits => exact hwaits

/-- Under the invariants a running CORE waits for the host only: for an item or for the sink. -/
theorem State.Waits.host_cases (h : s.Waits) (hinv : s.Inv) (hp : s.ph ≠ .idle) :
    (s.idx < s.len ∧ s.inp = []) ∨ (s.outValid = true ∧ s.outReady = false) := by
  cases h with
  | command hidle => exact absurd hidle hp
  | item hi hin =>
    rw [hinv.quota_eq] at hi hin
    have hlt := Nat.lt_of_le_of_ne (hinv.idx_le_len hp) hi
    exact .inl ⟨hlt, hin hlt⟩
  | sink hv hr => exact .inr ⟨hv, hr⟩

end

/-- Settles O56: the three holds, and that a step which changes nothing waits. -/
theorem holdsAreLiftedOnlyByTheHost : Obligations.HoldsAreLiftedOnlyByTheHost := by
  refine fun s => ⟨coreStep_of_idle, fun hp hinv hi hin => ?_, coreStep_of_sink_down, fun hp hinv h => ?_⟩
  · exact coreStep_of_waits (by rw [hinv.quota_eq]; exact Nat.ne_of_lt hi) fun _ => hin
  · exact (State.waits_of_coreStep_eq h).host_cases hinv hp

/-! ### A supplied operation ends -/

/-- An operation runs, the CORE steps on, the sink is ready and the items still to be taken are offered. -/
structure State.Supplied (s : State) : Prop where
  inv : s.Inv
  runs : s.coreRuns
  running : s.ph ≠ .idle
  sink : s.outReady = true
  items : s.len - s.idx ≤ s.inp.length

section
variable {s t : State}

/-- A supplied CORE waits for nothing. -/
theorem State.Supplied.not_waits (h : s.Supplied) : ¬ s.Waits := by
  intro hwaits
  obtain ⟨hi, hin⟩ | ⟨-, hdown⟩ := hwaits.host_cases h.inv h.running
  · have hitems := h.items
    rw [hin, List.length_nil] at hitems
    omega
  · simp [h.sink] at hdown

/-- So its step takes an item or ends the operation. -/
theorem State.Supplied.step_next (h : s.Supplied) :
    ∃ t, step s = .next t ∧ t.Inv ∧ (s.TakesItem t ∨ s.Ends t) := by
  obtain ⟨t, ht⟩ := coreStep_answers h.inv.covered
  refine ⟨t, (step_of_core h.runs.1 h.runs.2).trans ht, coreStep_inv h.inv ht, ?_⟩
  cases coreStep_ownStep ht with
  | takes htakes => exact .inl htakes
  | ends hends => exact .inr hends
  | holds hwaits => exact absurd hwaits h.not_waits

/-- One item less is needed, and one less is offered. -/
theorem State.Supplied.of_takesItem (h : s.Supplied) (ht : s.TakesItem t) (hinv : t.Inv) : t.Supplied where
  inv := hinv
  runs := ⟨ht.rst.trans h.runs.1, ht.host.trans h.runs.2⟩
  running := ht.ph ▸ h.running
  sink := ht.outReady.trans h.sink
  items := by
    obtain ⟨b, hin⟩ := ht.item
    have hitems := h.items
    rw [hin, List.length_cons] at hitems
    rw [ht.len, ht.idx]
    omega

end

/-- Every item taken is one step nearer to the end. -/
theorem State.Supplied.ends_within {s : State} (h : s.Supplied) :
    ∃ k t, k ≤ s.len - s.idx + 1 ∧ s.runsTo k t ∧ t.ph = .idle ∧ t.done ≠ t.err := by
  obtain ⟨u, hstep, hinv, htakes | hends⟩ := h.step_next
  · have hroom : s.idx < s.len := h.inv.quota_eq ▸ htakes.room
    have hnearer : u.len - u.idx = s.len - s.idx - 1 := by rw [htakes.len, htakes.idx]; omega
    obtain ⟨k, t, hk, hrun, hended⟩ := (h.of_takesItem htakes hinv).ends_within
    exact ⟨k + 1, t, by omega, runsTo_succ hstep hrun, hended⟩
  · exact ⟨1, u, Nat.le_add_left 1 _, runsTo_succ hstep (runsTo_zero u), hends.ph_eq_idle, hends.done_ne_err hinv⟩
termination_by s.len - s.idx

/-- Settles O59: a supplied CORE never waits, and each item taken brings IDX nearer to LEN. -/
theorem everySuppliedOperationEnds : Obligations.EverySuppliedOperationEnds := by
  intro s hinv hruns hbusy hsink hitems
  obtain ⟨k, t, hk, hrun, hidle, hflags⟩ :=
    State.Supplied.ends_within ⟨hinv, hruns, (busy_iff s).1 hbusy, hsink, hitems⟩
  exact ⟨k, t, hk, hrun, not_busy_of_ph hidle, hflags⟩

/-! ### When PH changes -/

theorem coreStep_ph {s t : State} (ht : coreStep s = .next t) (hne : t.ph ≠ s.ph) : s.Ends t := by
  cases coreStep_ownStep ht with
  | takes htakes => exact absurd htakes.ph hne
  | ends hends => exact hends
  | holds => exact absurd rfl hne

/-- The rows of the table of R176 by which the acceptance of the command i starts an operation. -/
def State.Starts (s : State) (i : Instr) (t : State) : Prop :=
  (t.ph = .build ∧ (i = .buildNormal ∨ i = .buildInverted) ∧ s.len = 32) ∨
  (t.ph = .enc ∧ i = .encode ∧ encodedLength s.lenW s.len ≠ none) ∨
  (t.ph = .dec ∧ i = .decode)

theorem buildStart_ph (o : BitOrder) (s : State) :
    (buildStart o s).ph = .idle ∨ ((buildStart o s).ph = .build ∧ s.len = 32) := by
  obtain ⟨hlen, start⟩ | ⟨-, fault⟩ := buildStart_cases o s
  · exact .inr ⟨by rw [start], hlen⟩
  · exact .inl (by rw [fault, State.raise_ph])

/-- A command has ended at its acceptance or has started an operation. -/
theorem exec_ph {i : Instr} {s t : State} (h : exec i s = .next t) : t.ph = .idle ∨ s.Starts i t := by
  cases i with
  | clr | loadbZbase32 | loadbRfc4648 | loadbBech32 | declen => obtain rfl := Host.Outcome.next.inj h; exact .inl rfl
  | buildNormal =>
    obtain rfl := Host.Outcome.next.inj h
    exact (buildStart_ph .normal s).imp_right fun ⟨hp, hlen⟩ => .inl ⟨hp, .inl rfl, hlen⟩
  | buildInverted =>
    obtain rfl := Host.Outcome.next.inj h
    exact (buildStart_ph .inverted s).imp_right fun ⟨hp, hlen⟩ => .inl ⟨hp, .inr rfl, hlen⟩
  | enclen =>
    cases hlen : encodedLength s.lenW s.len with
    | none => obtain rfl := Host.Outcome.next.inj ((exec_enclen_of_overflow hlen).symm.trans h); exact .inl rfl
    | some m => obtain rfl := Host.Outcome.next.inj ((exec_enclen_of_fits hlen).symm.trans h); exact .inl rfl
  | encode =>
    cases hlen : encodedLength s.lenW s.len with
    | none => obtain rfl := Host.Outcome.next.inj ((exec_encode_of_overflow hlen).symm.trans h); exact .inl rfl
    | some m =>
      obtain rfl := Host.Outcome.next.inj ((exec_encode_of_fits hlen).symm.trans h)
      exact .inr (.inr (.inl ⟨rfl, rfl, by simp [hlen]⟩))
  | decode => obtain rfl := Host.Outcome.next.inj h; exact .inr (.inr (.inr ⟨rfl, rfl⟩))

/-- From an idle CORE the acceptance of a word changes PH only by starting the operation of its command. -/
theorem acceptCommand_ph {w : Byte} {s t : State} (hp : s.ph = .idle) (h : acceptCommand w s = .next t)
    (hne : t.ph ≠ s.ph) : ∃ i, decode w = .command i ∧ s.Starts i t := by
  rw [hp] at hne
  obtain ⟨i, hd, hexec⟩ | ⟨_, -, rfl⟩ := acceptCommand_next_cases h
  · exact ⟨i, hd, (exec_ph hexec).resolve_left hne⟩
  · exact absurd rfl hne

/-- A reset step ends in the reset of some state, whatever the host does in it. -/
theorem resetStep_eq_resetCore (s : State) : ∃ u : State, resetStep s = u.resetCore := by
  unfold resetStep
  split
  · exact ⟨_, rfl⟩
  · exact ⟨_, rfl⟩

/-- Settles O57, by who acts in the step: the reset, the CORE (which only ends an operation) or the host (which starts
one, resets, or lets the CORE step). -/
theorem phaseChangesAsTheTableSays : Obligations.PhaseChangesAsTheTableSays := by
  intro s t h hne
  obtain ⟨hr, rfl⟩ | ⟨-, -, hcore⟩ | ⟨e, rest, hr, he, hhost⟩ := step_next_cases h
  · obtain ⟨u, hu⟩ := resetStep_eq_resetCore s
    rw [hu]
    exact .inl ⟨.inl hr, rfl, u.resetCore_status⟩
  · exact .inr (.inr (coreStep_ph hcore hne))
  · obtain ⟨data, rfl, hb, hcmd⟩ | ⟨_, -, -, rfl⟩ | ⟨rfl, rfl⟩ | ⟨-, hcore⟩ | ⟨_, _, rfl⟩ := hostStep_next_cases hhost
    · have hp : s.ph = .idle := (not_busy_iff s).1 hb
      obtain ⟨i, hd, hstarts⟩ := acceptCommand_ph (s := { s with host := rest }) hp hcmd hne
      exact .inr (.inl ⟨hp, i, data, rest, ⟨hr, he⟩, hd, hstarts⟩)
    · exact absurd rfl hne
    · exact .inl ⟨.inr ⟨rest, hr, he⟩, rfl, State.resetCore_status _⟩
    · exact .inr (.inr (coreStep_ph (s := { s with host := rest }) hcore hne))
    · exact absurd rfl hne

end Sys2Proof.Machine
end

section
/-! How the CORE comes to its steps (44_system.md R171, R173, R175): its own step, the acceptance of a command, and the
system operation CLR. -/

namespace Sys2Proof.Machine

/-- Settles O20: with no event left, and on tick. -/
theorem coreTakesItsOwnStepWhenTheHostLetsIt : Obligations.CoreTakesItsOwnStepWhenTheHostLetsIt := fun _ =>
  ⟨fun ⟨hr, he⟩ => step_of_core hr he, fun _ ⟨hr, he⟩ => step_of_event hr he⟩

theorem acceptCommand_of_command {w : Byte} {i : Instr} (h : decode w = .command i) (s : State) :
    acceptCommand w s = exec i s := by simp only [acceptCommand, h]

/-- Settles O12: the write of CMD is accepted, and the word is taken whole. -/
theorem cmdWriteRunsTheDecodedCommand : Obligations.CmdWriteRunsTheDecodedCommand := by
  intro s w rest i he hb hd
  rw [step_of_write he, writeReg_cmd_of_idle (s := { s with host := rest }) hb, BitVec.ofNat_toNat, BitVec.setWidth_eq,
    acceptCommand_of_command hd]

/-- A byte placed as a command word is placed as it is. -/
theorem State.withFetchWord_toNat (s : State) (w : Byte) : s.withFetchWord 8 w.toNat = placeCommand s w := by
  rw [State.withFetchWord, Nat.mod_eq_of_lt w.isLt, BitVec.ofNat_toNat, BitVec.setWidth_eq]

/-- Settles O13: placing a word makes its write to CMD the next event of an idle CORE. -/
theorem fetchWordIsAcceptedNext : Obligations.FetchWordIsAcceptedNext := by
  intro s i
  rw [State.withFetchWord_toNat]
  exact cmdWriteRunsTheDecodedCommand (placeCommand s (encode i)) (encode i) s.host i ⟨rfl, rfl⟩ rfl (decode_encode i)

/-- Settles O24: CLR is the prologue and a completion with RESULT 0. -/
theorem clrClearsTheCompletionStatus : Obligations.ClrClearsTheCompletionStatus :=
  ⟨rfl, fun s => ⟨s.prologue.complete 0, rfl, s.prologue_complete_status 0, rfl⟩⟩

end Sys2Proof.Machine
end

section
/-! Faults (60_exceptions.md): what taking one writes (R190), the two that end a command at its acceptance (R182, R188),
that none stops the machine (R193), and that none touches the alphabet or LEN (R191). -/

namespace Sys2Proof.Machine

/-! ### Taking a fault -/

/-- Settles O22: the block of R190 with STATUS as it then reads, and code and payload kind by kind. -/
theorem raiseWritesKindPayloadAndEndsTheOperation : Obligations.RaiseWritesKindPayloadAndEndsTheOperation :=
  ⟨fun s r => ⟨rfl, s.raise_status r⟩, ⟨rfl, rfl, rfl⟩, fun _ => ⟨rfl, rfl, rfl⟩, fun _ => ⟨rfl, rfl, rfl⟩,
    fun _ _ => ⟨rfl, rfl, rfl⟩, fun _ => rfl, ⟨rfl, rfl, rfl⟩, ⟨rfl, rfl, rfl⟩⟩

/-- STATUS after ILLEGAL_CMD (R181, R188). -/
theorem State.raise_illegalCmd_status (s : State) : (s.raise .illegalCmd).status = 0x74#8 :=
  BitVec.eq_of_toNat_eq (s.raise_status .illegalCmd)

/-- STATUS after VAL_INVALID_LENGTH (R181, R182). -/
theorem State.raise_valInvalidLength_status (s : State) : (s.raise .valInvalidLength).status = 0x14#8 :=
  BitVec.eq_of_toNat_eq (s.raise_status .valInvalidLength)

/-! ### The faults of the acceptance -/

/-- A word outside the table is taken as ILLEGAL_CMD after the prologue (R173, R188). -/
theorem acceptCommand_of_not_encode {w : Byte} (h : ∀ i, encode i ≠ w) (s : State) :
    acceptCommand w s = .next (s.prologue.raise .illegalCmd) := by
  cases hd : decode w with
  | command i => exact absurd (decode_eq_command_iff.1 hd) (h i)
  | illegal why => simp only [acceptCommand, hd]

/-- Settles O14: the write of CMD is accepted, and no command has the word. -/
theorem illegalWordFaultsAtOnce : Obligations.IllegalWordFaultsAtOnce := by
  intro s w rest he hb hw
  refine ⟨State.raise (State.prologue { s with host := rest }) .illegalCmd, ?_, State.raise_illegalCmd_status _, rfl⟩
  rw [step_of_write he, writeReg_cmd_of_idle (s := { s with host := rest }) hb, BitVec.ofNat_toNat, BitVec.setWidth_eq,
    acceptCommand_of_not_encode hw]

/-- Settles O27: the start rule of BUILD, at any length but the one it asks for. -/
theorem buildFaultsOnAnyOtherLength : Obligations.BuildFaultsOnAnyOtherLength := by
  intro o s h
  refine ⟨s.prologue.raise .valInvalidLength, ?_, State.raise_valInvalidLength_status _, rfl⟩
  rw [exec_buildCommand, buildStart_of_wrong_length h]

/-! ### No fault stops the machine -/

/-- Every command has a meaning in every state; ENCLEN and ENCODE answer also where the length overflows. -/
theorem exec_answers (i : Instr) (s : State) : ∃ t, exec i s = .next t := by
  cases i with
  | clr | loadbZbase32 | loadbRfc4648 | loadbBech32 | buildNormal | buildInverted | declen | decode => exact ⟨_, rfl⟩
  | enclen =>
    cases hlen : encodedLength s.lenW s.len with
    | none => exact ⟨_, exec_enclen_of_overflow hlen⟩
    | some m => exact ⟨_, exec_enclen_of_fits hlen⟩
  | encode =>
    cases hlen : encodedLength s.lenW s.len with
    | none => exact ⟨_, exec_encode_of_overflow hlen⟩
    | some m => exact ⟨_, exec_encode_of_fits hlen⟩

theorem acceptCommand_answers (w : Byte) (s : State) : ∃ t, acceptCommand w s = .next t := by
  by_cases hw : ∃ i, encode i = w
  · obtain ⟨i, hi⟩ := hw
    rw [acceptCommand_of_command (decode_eq_command_iff.2 hi)]
    exact exec_answers i s
  · exact ⟨_, acceptCommand_of_not_encode (not_exists.1 hw) s⟩

theorem writeReg_answers (reg data : Nat) (s : State) : ∃ t, writeReg reg data s = .next t := by
  obtain rfl | h0 := eq_or_ne reg 0
  · cases hb : s.busy with
    | true => exact ⟨_, writeReg_cmd_of_busy hb data⟩
    | false =>
      rw [writeReg_cmd_of_idle hb]
      exact acceptCommand_answers _ s
  · obtain rfl | h2 := eq_or_ne reg 2
    · exact ⟨_, writeReg_len s data⟩
    · exact ⟨_, writeReg_of_readOnly s h0 h2 data⟩

/-- Of the host's events only a tick can meet the one stop (log 5). -/
theorem hostStep_answers {s : State} (h : s.Covered) (e : HostEvent) : ∃ t, hostStep e s = .next t := by
  cases e with
  | write reg data => exact writeReg_answers reg data s
  | present _ | withdraw | sink _ => exact ⟨_, rfl⟩
  | rst level => cases level <;> exact ⟨_, rfl⟩
  | tick => exact coreStep_answers h

/-- A step answers wherever DEC_LUT has a rule for the item that comes next. -/
theorem step_answers {s : State} (h : s.Covered) : ∃ t, step s = .next t := by
  cases hr : s.rst with
  | true => exact ⟨_, step_of_rst hr⟩
  | false =>
    cases he : s.host with
    | nil => rw [step_of_core hr he]; exact coreStep_answers h
    | cons e rest => rw [step_of_event hr he]; exact hostStep_answers (s := { s with host := rest }) h e

/-- Settles O4: the alphabet of R24 covers every item. -/
theorem noStepStopsUnderTheInvariants : Obligations.NoStepStopsUnderTheInvariants := fun _ h =>
  step_answers h.covered

/-! ### LEN in the CORE's own step -/

theorem buildStep_len (s : State) : (buildStep s).len = s.len := by
  obtain hold | ⟨_, _, -, -, fill⟩ | ⟨-, check⟩ := buildStep_cases s
  · rw [hold]
  · rw [fill]; rfl
  · rw [check]
    obtain ⟨_, -, fault⟩ | ⟨-, commit⟩ := buildCheck_cases s
    · rw [fault, State.raise_len]
    · rw [commit]

theorem encStep_len (s : State) : (encStep s).len = s.len := by
  obtain hold | ⟨b, rest, -, -, byte⟩ | ⟨-, finish⟩ := encStep_cases s
  · rw [hold]
  · rw [byte]
    obtain hold | move := encodeByte_cases b rest s
    · rw [hold]
    · rw [move]
  · rw [finish]
    obtain hold | complete := encodeFinish_cases s
    · rw [hold]
    · rw [complete]

theorem decStep_len {s t : State} (h : decStep s = .next t) : t.len = s.len := by
  obtain hold | ⟨c, rest, -, -, symbol⟩ | ⟨-, finish⟩ := decStep_cases s
  · obtain rfl := Host.Outcome.next.inj (hold.symm.trans h)
    rfl
  · obtain ⟨-, rfl⟩ | ⟨-, -, rfl⟩ := decodeSymbol_next (symbol ▸ h)
    · rfl
    · obtain hold | move := decodeValue_cases (decRead s.alpha c).toNat rest s
      · rw [hold]
      · rw [move]
  · obtain rfl := Host.Outcome.next.inj (finish.symm.trans h)
    rfl

/-- No operation writes LEN, it only reads it. -/
theorem coreStep_len {s t : State} (h : coreStep s = .next t) : t.len = s.len := by
  obtain ⟨-, rfl⟩ | ⟨-, rfl⟩ | ⟨-, rfl⟩ | ⟨-, hdec⟩ := coreStep_next_cases h
  · rfl
  · exact buildStep_len s
  · exact encStep_len s
  · exact decStep_len hdec

/-! ### A fault keeps the alphabet and LEN -/

section
variable {s t : State}

theorem State.Inv.done_eq_false (h : s.Inv) (he : s.err = true) : s.done = false := by
  obtain ⟨-, -, hnotboth⟩ := h.one_flag
  simpa [he] using hnotboth

theorem exec_keeps_of_err {i : Instr} (h : exec i s = .next t) (he : t.err = true) :
    t.alpha = s.alpha ∧ t.len = s.len := by
  obtain ⟨_, rfl, -⟩ | ⟨_, rfl⟩ | ⟨rfl, -⟩ | ⟨rfl, -⟩ | ⟨_, rfl, -⟩ | ⟨_, rfl, -⟩ | rfl := exec_next_cases h
  case inr.inl => exact absurd he Bool.false_ne_true
  all_goals exact ⟨rfl, rfl⟩

theorem acceptCommand_keeps_of_err {w : Byte} (h : acceptCommand w s = .next t) (he : t.err = true) :
    t.alpha = s.alpha ∧ t.len = s.len := by
  obtain ⟨_, -, hexec⟩ | ⟨_, -, rfl⟩ := acceptCommand_next_cases h
  · exact exec_keeps_of_err hexec he
  · exact ⟨rfl, rfl⟩

/-- The commit of a BUILD leaves DONE = 1, so R38 tells it from a fault. -/
theorem coreStep_keeps_of_err (hinv : s.Inv) (h : coreStep s = .next t) (he : t.err = true) :
    t.alpha = s.alpha ∧ t.len = s.len := by
  refine ⟨(coreStep_alpha h).resolve_right ?_, coreStep_len h⟩
  rintro ⟨-, -, hdone, -⟩
  exact absurd ((coreStep_inv hinv h).done_eq_false he) (by simp [hdone])

/-- Of the host's events only a write to LEN changes one of the two and leaves ERR = 1: a reset clears ERR. -/
theorem hostStep_keeps_of_err {e : HostEvent} (hinv : s.Inv) (h : hostStep e s = .next t) (he : t.err = true) :
    t.alpha = s.alpha ∧ (t.len = s.len ∨ ∃ data, e = .write 2 data) := by
  obtain ⟨_, -, -, hcmd⟩ | ⟨data, rfl, -, rfl⟩ | ⟨-, rfl⟩ | ⟨-, hcore⟩ | ⟨_, _, rfl⟩ := hostStep_next_cases h
  · exact (acceptCommand_keeps_of_err hcmd he).imp_right .inl
  · exact ⟨rfl, .inr ⟨data, rfl⟩⟩
  · exact absurd he Bool.false_ne_true
  · exact (coreStep_keeps_of_err hinv hcore he).imp_right .inl
  · exact ⟨rfl, .inl rfl⟩

end

/-- Settles O23, by who acts in the step: the reset (which leaves ERR = 0), the CORE or the host. -/
theorem faultsLeaveAlphabetAndLen : Obligations.FaultsLeaveAlphabetAndLen := by
  intro s t hinv h he
  obtain ⟨-, rfl⟩ | ⟨-, -, hcore⟩ | ⟨e, rest, hr, hcons, hhost⟩ := step_next_cases h
  · obtain ⟨u, hu⟩ := resetStep_eq_resetCore s
    rw [hu] at he
    exact absurd he Bool.false_ne_true
  · exact (coreStep_keeps_of_err hinv hcore he).imp_right .inl
  · obtain ⟨halpha, hlen⟩ := hostStep_keeps_of_err (hinv.of_host s.inp s.outReady rest s.rst) hhost he
    exact ⟨halpha, hlen.imp_right fun ⟨data, hwrite⟩ => ⟨data, rest, hr, hwrite ▸ hcons⟩⟩

end Sys2Proof.Machine
end

section
/-! Reset and hazards (70_reset_and_hazards.md): the reset steps (R210, R212), a register write to a busy CORE (R214), and
the events that move only the host's own side (R217, R220). -/

namespace Sys2Proof.Machine

/-! ### Events while rst is 0 -/

/-- A busy CORE takes no register write, whichever the register (R214). -/
theorem writeReg_of_busy {s : State} (hb : s.busy = true) (reg data : Nat) : writeReg reg data s = .next s := by
  by_cases h0 : reg = 0
  · rw [h0, writeReg_cmd_of_busy hb]
  by_cases h2 : reg = 2
  · rw [h2, writeReg_len, writeLen_of_busy hb]
  exact writeReg_of_readOnly s h0 h2 data

/-- Settles O15: the event is taken, and what it writes is ignored. -/
theorem busyCoreIgnoresRegisterWrites : Obligations.BusyCoreIgnoresRegisterWrites := by
  intro s reg data rest he hb
  rw [step_of_write he, writeReg_of_busy (s := { s with host := rest }) hb]

/-- Settles O21: each of the three is a step that applies hostSide and no more. -/
theorem hostSideEventsLeaveTheCore : Obligations.HostSideEventsLeaveTheCore := fun _ _ =>
  ⟨fun _ ⟨hr, he⟩ => step_of_event hr he, fun ⟨hr, he⟩ => step_of_event hr he, fun _ ⟨hr, he⟩ => step_of_event hr he⟩

/-! ### Reset steps -/

theorem resetStep_of_no_event {s : State} (he : s.host = []) : resetStep s = s.resetCore := by simp [resetStep, he]

theorem resetStep_of_event {s : State} {e : HostEvent} {rest : List HostEvent} (he : s.host = e :: rest) :
    resetStep s = (State.hostSide { s with host := rest } e).resetCore := by simp [resetStep, he]

/-- Of a host event, a reset keeps what it did to the offered items, the sink and the rst pin (R212, log 2). -/
theorem State.hostSide_resetCore (s : State) (e : HostEvent) (rest : List HostEvent) :
    (State.hostSide { s with host := rest } e).resetCore = { State.resetAt s.lenW with
      inp := (s.hostSide e).inp, out := s.out, outReady := (s.hostSide e).outReady, rst := (s.hostSide e).rst
      host := rest } := by
  cases e <;> rfl

/-- Only the event that lowers the pin ends a reset. -/
theorem State.hostSide_rst {s : State} {e : HostEvent} (hne : e ≠ .rst false) (hr : s.rst = true) :
    (s.hostSide e).rst = true := by
  cases e with
  | rst level =>
    cases level with
    | false => exact absurd rfl hne
    | true => rfl
  | write | present | withdraw | sink | tick => exact hr

/-- Settles O8: a reset step with no event, with an event, and the step of the event that raises rst. -/
theorem resetStepRestoresEveryComponent : Obligations.ResetStepRestoresEveryComponent := by
  refine fun s => ⟨fun hr he => ?_, fun e rest hr he => ?_, fun _ _ => rfl, fun _ hne hr => State.hostSide_rst hne hr,
    fun rest ⟨hr, he⟩ => ?_⟩
  · rw [step_of_rst hr, resetStep_of_no_event he, State.resetCore, hr, he]
  · rw [step_of_rst hr, resetStep_of_event he, State.hostSide_resetCore]
  · rw [step_of_event hr he]
    exact congrArg Host.Outcome.next (s.hostSide_resetCore (.rst true) rest)

end Sys2Proof.Machine
end
